-- ==== Sys2Proof/Word.lean ====
section
/-! DEFINITION. The machine word and the byte (00_scope.md R7, R10). -/

namespace Sys2Proof

/-- A register, a memory word, an address, an instruction: 16 bits, bit 15 most significant (R10). -/
abbrev Word := BitVec 16

/-- 8 bits: the immediate field, a device's data byte, a byte of the image file (R10). -/
abbrev Byte := BitVec 8

end Sys2Proof
end

