-- ==== Sys2Proof/Config.lean ====
section
/-! DEFINITION. What is fixed for a machine: the constants of 00_scope.md R7 and the types of the
parameters of R8 and R9. The parameters' default values stand in Machine/Defaults.lean. -/

namespace Sys2Proof

/-- `DECODE_POLICY` (R9; 30_encoding.md R108, R109): whether a word that is not the encoder's output faults. -/
inductive DecodePolicy where
  /-- every word that is not well-formed faults -/
  | strict
  /-- unused fields are ignored and no word faults -/
  | lenient
  deriving DecidableEq, Repr

/-- The parameters of a run that a rule reads (R8, R9). They do not change during a run (10_state.md R35).
`REG_RESET` and `MEM_FILL` shape the reset state only; `DEVICES`, `IMAGE` and `LOAD_ADDR` are the
device list of the state and the arguments of the loader. -/
structure Params where
  /-- `CYCLE_CAP`: at most this many cycles run (60_exceptions.md R253) -/
  cycleCap : Nat
  /-- `ALU_WRITES_NEGATIVE`: the five ALU instructions also write `FLAG.N` (40_execution_cycle.md R157) -/
  aluWritesNegative : Bool
  /-- `ROM_WRITABLE`: a write to the ROM region stores (20_memory.md R65) -/
  romWritable : Bool
  /-- `DECODE_POLICY` -/
  decodePolicy : DecodePolicy
  deriving DecidableEq, Repr

/-! The constants of R7, named as the spec names them. -/

def Config.memWords : Nat := 65536
def Config.romBase : Nat := 0x0000
def Config.romLast : Nat := 0x7FFF
def Config.vramBase : Nat := 0x8000
def Config.vramLast : Nat := 0xBFFF
def Config.ramBase : Nat := 0xC000
def Config.ramLast : Nat := 0xFDFD
def Config.kbdPort : Word := 0xFDFE
def Config.romWords : Nat := 32768

end Sys2Proof
end

