-- ==== Sys2Proof/Syntax.lean ====
section
/-! DEFINITION. The instruction set as syntax: registers, mnemonics, operand shapes, the source form of an
instruction (30_encoding.md R103 to R105, R124), and `Instr`, one constructor per row of opcode_table.json. -/

namespace Sys2Proof

/-- The eight indexable registers, in index order (10_state.md R21). `PC` and `SP` have no index. -/
inductive Reg where
  | A | B | C | D | E | HL | SR | FLAG
  deriving DecidableEq, Repr

/-- The 16 mnemonics, in opcode order (R105). -/
inductive Mnemonic where
  | NOP | HALT | MW | MWL | MWH | LW | SW | ADD | SUB | AND | ADDC | NOT | JMPZ | JMPN | PUSH | POP
  deriving DecidableEq, Repr

/-- The six operand shapes (R104). -/
inductive Shape where
  | noParams | registerOnly | immediateOnly | registerOrImmediate | regFirstRegOrImm | immOrRegSecond
  deriving DecidableEq, Repr

/-- The operand shape of each mnemonic (R105). -/
def Mnemonic.shape : Mnemonic → Shape
  | .NOP => .noParams
  | .HALT => .noParams
  | .MW => .regFirstRegOrImm
  | .MWL => .immediateOnly
  | .MWH => .immediateOnly
  | .LW => .regFirstRegOrImm
  | .SW => .immOrRegSecond
  | .ADD => .regFirstRegOrImm
  | .SUB => .regFirstRegOrImm
  | .AND => .regFirstRegOrImm
  | .ADDC => .regFirstRegOrImm
  | .NOT => .regFirstRegOrImm
  | .JMPZ => .registerOrImmediate
  | .JMPN => .registerOrImmediate
  | .PUSH => .registerOrImmediate
  | .POP => .registerOnly

/-- An operand as an assembly line writes it: a register name, or a number of any size (R117, R118). -/
inductive AsmOperand where
  | reg (r : Reg)
  | lit (n : Nat)
  deriving DecidableEq, Repr

/-- An instruction line: a mnemonic and its operands in written order (R117). Whether the operands fit the
mnemonic is checked in WellFormed.lean. -/
structure AsmInstr where
  mnemonic : Mnemonic
  operands : List AsmOperand
  deriving DecidableEq, Repr

/-- The instructions, one constructor per row of opcode_table.json (the 27 forms of R107), with the operands
in the order the assembly syntax writes them (R124). Register and immediate fields have exactly the values
an encoding can hold, so every term is an instruction of the machine. -/
inductive Instr where
  | nop
  | halt
  | mwReg (d src : Reg)
  | mwImm (d : Reg) (i : Byte)
  | mwl (i : Byte)
  | mwh (i : Byte)
  | lwReg (d a : Reg)
  | lwImm (d : Reg) (i : Byte)
  | swReg (a src : Reg)
  | swImm (i : Byte) (src : Reg)
  | addReg (d src : Reg)
  | addImm (d : Reg) (i : Byte)
  | subReg (d src : Reg)
  | subImm (d : Reg) (i : Byte)
  | andReg (d src : Reg)
  | andImm (d : Reg) (i : Byte)
  | addcReg (d src : Reg)
  | addcImm (d : Reg) (i : Byte)
  | notReg (d src : Reg)
  | notImm (d : Reg) (i : Byte)
  | jmpzReg (src : Reg)
  | jmpzImm (i : Byte)
  | jmpnReg (src : Reg)
  | jmpnImm (i : Byte)
  | pushReg (src : Reg)
  | pushImm (i : Byte)
  | pop (d : Reg)
  deriving DecidableEq, Repr

/-- The assembly syntax of each instruction (R124). -/
def Instr.source : Instr → AsmInstr
  | .nop => ⟨.NOP, []⟩
  | .halt => ⟨.HALT, []⟩
  | .mwReg d src => ⟨.MW, [.reg d, .reg src]⟩
  | .mwImm d i => ⟨.MW, [.reg d, .lit i.toNat]⟩
  | .mwl i => ⟨.MWL, [.lit i.toNat]⟩
  | .mwh i => ⟨.MWH, [.lit i.toNat]⟩
  | .lwReg d a => ⟨.LW, [.reg d, .reg a]⟩
  | .lwImm d i => ⟨.LW, [.reg d, .lit i.toNat]⟩
  | .swReg a src => ⟨.SW, [.reg a, .reg src]⟩
  | .swImm i src => ⟨.SW, [.lit i.toNat, .reg src]⟩
  | .addReg d src => ⟨.ADD, [.reg d, .reg src]⟩
  | .addImm d i => ⟨.ADD, [.reg d, .lit i.toNat]⟩
  | .subReg d src => ⟨.SUB, [.reg d, .reg src]⟩
  | .subImm d i => ⟨.SUB, [.reg d, .lit i.toNat]⟩
  | .andReg d src => ⟨.AND, [.reg d, .reg src]⟩
  | .andImm d i => ⟨.AND, [.reg d, .lit i.toNat]⟩
  | .addcReg d src => ⟨.ADDC, [.reg d, .reg src]⟩
  | .addcImm d i => ⟨.ADDC, [.reg d, .lit i.toNat]⟩
  | .notReg d src => ⟨.NOT, [.reg d, .reg src]⟩
  | .notImm d i => ⟨.NOT, [.reg d, .lit i.toNat]⟩
  | .jmpzReg src => ⟨.JMPZ, [.reg src]⟩
  | .jmpzImm i => ⟨.JMPZ, [.lit i.toNat]⟩
  | .jmpnReg src => ⟨.JMPN, [.reg src]⟩
  | .jmpnImm i => ⟨.JMPN, [.lit i.toNat]⟩
  | .pushReg src => ⟨.PUSH, [.reg src]⟩
  | .pushImm i => ⟨.PUSH, [.lit i.toNat]⟩
  | .pop d => ⟨.POP, [.reg d]⟩

end Sys2Proof
end

