-- ==== Sys2Proof/WellFormed.lean ====
section
/-! DEFINITION. Well-formedness of an instruction as written: operand count, operand kinds and literal range
(30_encoding.md R104, R117, R118). The word-level check of R107 stands in Decode.lean (`wellFormed`).
A term of `Instr` is well-formed by its types; `Instr.wellFormed` says so through its source form. -/

namespace Sys2Proof

/-- How many operands a shape takes (R104). -/
def Shape.arity : Shape → Nat
  | .noParams => 0
  | .registerOnly => 1
  | .immediateOnly => 1
  | .registerOrImmediate => 1
  | .regFirstRegOrImm => 2
  | .immOrRegSecond => 2

/-- Which operand kinds a shape admits, in written order (R104). A list of the wrong length admits nothing. -/
def Shape.admits : Shape → List AsmOperand → Bool
  | .noParams, [] => true
  | .registerOnly, [.reg _] => true
  | .immediateOnly, [.lit _] => true
  | .registerOrImmediate, [_] => true
  | .regFirstRegOrImm, [.reg _, _] => true
  | .immOrRegSecond, [_, .reg _] => true
  | _, _ => false

/-- An immediate operand must fit in 8 bits (R118). -/
def AsmOperand.inRange : AsmOperand → Bool
  | .reg _ => true
  | .lit n => n < 256

/-- The whole check of an instruction line: count, kinds, range. -/
def AsmInstr.wellFormed (i : AsmInstr) : Bool :=
  i.operands.length == i.mnemonic.shape.arity &&
    (i.mnemonic.shape.admits i.operands && i.operands.all AsmOperand.inRange)

/-- An instruction is well-formed when its written form is. -/
def Instr.wellFormed (i : Instr) : Bool := i.source.wellFormed

end Sys2Proof
end

