-- ==== Sys2Proof/Decode.lean ====
section
/-! DEFINITION. Words to instructions and back (30_encoding.md R100 to R109; opcode_table.json): the fields of a
word, the well-formedness check of R107, the decoder under both policies, then the encoder. -/

namespace Sys2Proof

/-- The fields of a word (R101). `reg2` and `imm8` are two readings of the same low bits. -/
structure Fields where
  op : BitVec 4
  mode : Bool
  reg1 : BitVec 3
  reg2 : BitVec 3
  imm8 : Byte
  deriving DecidableEq, Repr

/-- `DecodeFields` (R101): total on all 65536 words. -/
def decodeFields (w : Word) : Fields where
  op := w.extractLsb' 12 4
  mode := w.getLsbD 11
  reg1 := w.extractLsb' 8 3
  reg2 := w.extractLsb' 5 3
  imm8 := w.extractLsb' 0 8

/-- The register of an index (R21, R103). -/
def Reg.ofIndex (n : BitVec 3) : Reg :=
  match n.toNat with
  | 0 => .A
  | 1 => .B
  | 2 => .C
  | 3 => .D
  | 4 => .E
  | 5 => .HL
  | 6 => .SR
  | _ => .FLAG

/-- The index of a register: `A=0, B=1, C=2, D=3, E=4, HL=5, SR=6, FLAG=7` (R21, R103). -/
def Reg.index : Reg → BitVec 3
  | .A => 0
  | .B => 1
  | .C => 2
  | .D => 3
  | .E => 4
  | .HL => 5
  | .SR => 6
  | .FLAG => 7

/-- The mnemonic an opcode selects: all 16 values are defined (R105, R111). -/
def Mnemonic.ofOpcode (op : BitVec 4) : Mnemonic :=
  match op.toNat with
  | 0x0 => .NOP
  | 0x1 => .HALT
  | 0x2 => .MW
  | 0x3 => .MWL
  | 0x4 => .MWH
  | 0x5 => .LW
  | 0x6 => .SW
  | 0x7 => .ADD
  | 0x8 => .SUB
  | 0x9 => .AND
  | 0xA => .ADDC
  | 0xB => .NOT
  | 0xC => .JMPZ
  | 0xD => .JMPN
  | 0xE => .PUSH
  | _ => .POP

/-- The opcode of a mnemonic (R105). -/
def Mnemonic.opcode : Mnemonic → BitVec 4
  | .NOP => 0x0
  | .HALT => 0x1
  | .MW => 0x2
  | .MWL => 0x3
  | .MWH => 0x4
  | .LW => 0x5
  | .SW => 0x6
  | .ADD => 0x7
  | .SUB => 0x8
  | .AND => 0x9
  | .ADDC => 0xA
  | .NOT => 0xB
  | .JMPZ => 0xC
  | .JMPN => 0xD
  | .PUSH => 0xE
  | .POP => 0xF

/-- `WellFormed(w)` of R107, clause by clause: every field the instruction does not use is zero. -/
def wellFormed (w : Word) : Bool :=
  let f := decodeFields w
  match Mnemonic.ofOpcode f.op with
  | .NOP | .HALT => w.extractLsb' 0 12 == 0
  | .MWL | .MWH => f.mode && f.reg1 == 0
  | .MW | .LW | .SW | .ADD | .SUB | .AND | .ADDC | .NOT => f.mode || w.extractLsb' 0 5 == 0
  | .JMPZ | .JMPN | .PUSH => f.reg1 == 0 && (f.mode || w.extractLsb' 0 5 == 0)
  | .POP => !f.mode && f.imm8 == 0

/-- Why a word is no instruction under `strict`: the first clause of R107 that it breaks. -/
inductive Malformed where
  /-- `NOP` or `HALT` with a bit of `w[11:0]` set -/
  | operandBitsSet
  /-- `MWL` or `MWH` with `mode = 0` -/
  | immediateFormOnly
  /-- `POP` with `mode = 1` -/
  | registerFormOnly
  /-- `reg1` is not zero where it is unused -/
  | reg1Set
  /-- a bit of `w[4:0]` is set in a register form -/
  | lowBitsSet
  /-- `POP` with a bit of `w[7:0]` set -/
  | lowByteSet
  deriving DecidableEq, Repr

/-- The name under which a word that is not well-formed is rejected. -/
def malformation (w : Word) : Malformed :=
  let f := decodeFields w
  match Mnemonic.ofOpcode f.op with
  | .NOP | .HALT => .operandBitsSet
  | .MWL | .MWH => if f.mode then .reg1Set else .immediateFormOnly
  | .MW | .LW | .SW | .ADD | .SUB | .AND | .ADDC | .NOT => .lowBitsSet
  | .JMPZ | .JMPN | .PUSH => if f.reg1 == 0 then .lowBitsSet else .reg1Set
  | .POP => if f.mode then .registerFormOnly else .lowByteSet

/-- The instruction the fields stand for, using only the fields its effect names (R106, R109, R154). -/
def instrOfFields (f : Fields) : Instr :=
  let r1 := Reg.ofIndex f.reg1
  let r2 := Reg.ofIndex f.reg2
  match Mnemonic.ofOpcode f.op with
  | .NOP => .nop
  | .HALT => .halt
  | .MW => if f.mode then .mwImm r1 f.imm8 else .mwReg r1 r2
  | .MWL => .mwl f.imm8
  | .MWH => .mwh f.imm8
  | .LW => if f.mode then .lwImm r1 f.imm8 else .lwReg r1 r2
  | .SW => if f.mode then .swImm f.imm8 r1 else .swReg r2 r1
  | .ADD => if f.mode then .addImm r1 f.imm8 else .addReg r1 r2
  | .SUB => if f.mode then .subImm r1 f.imm8 else .subReg r1 r2
  | .AND => if f.mode then .andImm r1 f.imm8 else .andReg r1 r2
  | .ADDC => if f.mode then .addcImm r1 f.imm8 else .addcReg r1 r2
  | .NOT => if f.mode then .notImm r1 f.imm8 else .notReg r1 r2
  | .JMPZ => if f.mode then .jmpzImm f.imm8 else .jmpzReg r2
  | .JMPN => if f.mode then .jmpnImm f.imm8 else .jmpnReg r2
  | .PUSH => if f.mode then .pushImm f.imm8 else .pushReg r2
  | .POP => .pop r1

/-- The decoder: total on all 65536 words (R108, R109, R152). -/
def decode (policy : DecodePolicy) (w : Word) : Except Malformed Instr :=
  match policy with
  | .lenient => .ok (instrOfFields (decodeFields w))
  | .strict => if wellFormed w then .ok (instrOfFields (decodeFields w)) else .error (malformation w)

/-- `EncodeFields` with `mode = 0` (R102): `op*4096 + 0*2048 + reg1*256 + r*32`. -/
def encodeRegFields (op : BitVec 4) (reg1 r : BitVec 3) : Word :=
  BitVec.ofNat 16 (op.toNat * 4096 + reg1.toNat * 256 + r.toNat * 32)

/-- `EncodeFields` with `mode = 1` (R102): `op*4096 + 1*2048 + reg1*256 + r`. -/
def encodeImmFields (op : BitVec 4) (reg1 : BitVec 3) (r : Byte) : Word :=
  BitVec.ofNat 16 (op.toNat * 4096 + 2048 + reg1.toNat * 256 + r.toNat)

/-- The word of an instruction (R106): the address operand of `SW` and the one register operand of `JMPZ`,
`JMPN`, `PUSH` go to `reg2`; a field an instruction does not use is zero. -/
def encode : Instr → Word
  | .nop => encodeRegFields Mnemonic.NOP.opcode 0 0
  | .halt => encodeRegFields Mnemonic.HALT.opcode 0 0
  | .mwReg d src => encodeRegFields Mnemonic.MW.opcode d.index src.index
  | .mwImm d i => encodeImmFields Mnemonic.MW.opcode d.index i
  | .mwl i => encodeImmFields Mnemonic.MWL.opcode 0 i
  | .mwh i => encodeImmFields Mnemonic.MWH.opcode 0 i
  | .lwReg d a => encodeRegFields Mnemonic.LW.opcode d.index a.index
  | .lwImm d i => encodeImmFields Mnemonic.LW.opcode d.index i
  | .swReg a src => encodeRegFields Mnemonic.SW.opcode src.index a.index
  | .swImm i src => encodeImmFields Mnemonic.SW.opcode src.index i
  | .addReg d src => encodeRegFields Mnemonic.ADD.opcode d.index src.index
  | .addImm d i => encodeImmFields Mnemonic.ADD.opcode d.index i
  | .subReg d src => encodeRegFields Mnemonic.SUB.opcode d.index src.index
  | .subImm d i => encodeImmFields Mnemonic.SUB.opcode d.index i
  | .andReg d src => encodeRegFields Mnemonic.AND.opcode d.index src.index
  | .andImm d i => encodeImmFields Mnemonic.AND.opcode d.index i
  | .addcReg d src => encodeRegFields Mnemonic.ADDC.opcode d.index src.index
  | .addcImm d i => encodeImmFields Mnemonic.ADDC.opcode d.index i
  | .notReg d src => encodeRegFields Mnemonic.NOT.opcode d.index src.index
  | .notImm d i => encodeImmFields Mnemonic.NOT.opcode d.index i
  | .jmpzReg src => encodeRegFields Mnemonic.JMPZ.opcode 0 src.index
  | .jmpzImm i => encodeImmFields Mnemonic.JMPZ.opcode 0 i
  | .jmpnReg src => encodeRegFields Mnemonic.JMPN.opcode 0 src.index
  | .jmpnImm i => encodeImmFields Mnemonic.JMPN.opcode 0 i
  | .pushReg src => encodeRegFields Mnemonic.PUSH.opcode 0 src.index
  | .pushImm i => encodeImmFields Mnemonic.PUSH.opcode 0 i
  | .pop d => encodeRegFields Mnemonic.POP.opcode d.index 0

/-- A row of the opcode table: the words `w` with `w & mask = match` (R107). -/
structure Form where
  mask : Word
  pattern : Word
  mnemonic : Mnemonic
  deriving DecidableEq, Repr

/-- Whether a word is of a form. -/
def Form.covers (f : Form) (w : Word) : Bool := (w &&& f.mask) == f.pattern

/-- The 27 match/mask rows of R107, in the table's order, transcribed and not computed from the encoder. -/
def opcodeForms : List Form :=
  [⟨0xFFFF, 0x0000, .NOP⟩, ⟨0xFFFF, 0x1000, .HALT⟩, ⟨0xF81F, 0x2000, .MW⟩, ⟨0xF800, 0x2800, .MW⟩,
   ⟨0xFF00, 0x3800, .MWL⟩, ⟨0xFF00, 0x4800, .MWH⟩, ⟨0xF81F, 0x5000, .LW⟩, ⟨0xF800, 0x5800, .LW⟩,
   ⟨0xF81F, 0x6000, .SW⟩, ⟨0xF800, 0x6800, .SW⟩, ⟨0xF81F, 0x7000, .ADD⟩, ⟨0xF800, 0x7800, .ADD⟩] ++
  [⟨0xF81F, 0x8000, .SUB⟩, ⟨0xF800, 0x8800, .SUB⟩, ⟨0xF81F, 0x9000, .AND⟩, ⟨0xF800, 0x9800, .AND⟩,
   ⟨0xF81F, 0xA000, .ADDC⟩, ⟨0xF800, 0xA800, .ADDC⟩, ⟨0xF81F, 0xB000, .NOT⟩, ⟨0xF800, 0xB800, .NOT⟩,
   ⟨0xFF1F, 0xC000, .JMPZ⟩, ⟨0xFF00, 0xC800, .JMPZ⟩, ⟨0xFF1F, 0xD000, .JMPN⟩, ⟨0xFF00, 0xD800, .JMPN⟩,
   ⟨0xFF1F, 0xE000, .PUSH⟩, ⟨0xFF00, 0xE800, .PUSH⟩, ⟨0xF8FF, 0xF000, .POP⟩]

/-- The word whose low `nbits` bits are those of `w`, every bit above them zero. -/
def tableWord (nbits w : Nat) : Word := BitVec.ofNat 16 (w % 2 ^ nbits)

/-- The instruction the decoder reads from an opcode-table word (under the default policy, `strict`). -/
def decodeTableWord (nbits w : Nat) : Option Instr := (decode .strict (tableWord nbits w)).toOption

end Sys2Proof
end

