-- ==== Sys2Proof/Machine/Defaults.lean ====
section
/-! DEFINITION. The values the reset state is made of: those the spec gives, the defaults of its own decisions, and
the one value the spec gives nowhere (`CYCLE_CAP`). -/

namespace Sys2Proof.Machine

/-- `SP_RESET` (00_scope.md R7): the source's own value. -/
def spReset : Word := 0xFDFD

/-- `PC` after reset (10_state.md R37; 70_reset_and_hazards.md R291). -/
def pcReset : Word := 0x0000

/-- `REG_RESET` (R9, decision D11). DESIGN CHOICE, unsafe: log entry 3. -/
def regReset : Word := 0x0000

/-- `MEM_FILL` (R9, decision D12; 20_memory.md R81): what a word of memory that nothing has written holds.
DESIGN CHOICE, unsafe: log entry 2. -/
def memFill : Word := 0x0000

/-- The default of `LOAD_ADDR` (R8, decision D15; 20_memory.md R79). -/
def defaultLoadAddr : Nat := 0

/-- The parameters at reset: the defaults of R9 (decisions D1, D7, D13; log entries 6 to 8), and a cycle cap,
which has no value in the spec (R8, D20). DESIGN CHOICE, unsafe: log entry 9. -/
def defaultParams : Params where
  cycleCap := 0x100000000
  aluWritesNegative := false
  romWritable := true
  decodePolicy := .strict

end Sys2Proof.Machine
end

