-- ==== Sys2Proof/Machine/State.lean ====
section
/-! DEFINITION. The state of the machine as plain data (10_state.md), the outcomes' reasons, and the state after
reset (R37; 70_reset_and_hazards.md R290). Operations on it stand in Ops.lean. -/

namespace Sys2Proof.Machine

/-- The eight indexable 16-bit registers (R20, R21). -/
structure RegFile where
  A : Word
  B : Word
  C : Word
  D : Word
  E : Word
  HL : Word
  SR : Word
  FLAG : Word
  deriving DecidableEq, Repr

/-- The run status (R33). -/
inductive Status where
  | running
  | halted
  | faulted
  deriving DecidableEq, Repr

/-- Memory: the words that differ from `memFill`, as (address, word) pairs in rising address order
(20_memory.md R61; log entry 1). The form is `Memory.wf` in Ops.lean. -/
abbrev Memory := List (Nat × Word)

/-- What the environment has a device do in one cycle (60_exceptions.md R252 (c)): whether its `tick` sets the
pending flag, and what `trySend()` answers if the engine asks. -/
structure Poll where
  raises : Bool
  answer : Option Byte
  deriving DecidableEq, Repr

/-- A registered device (R245, R246, R252): its port (a screen has none), its pending flag, and the polls the
environment has in store for it, the next one first; after the last the device is silent (log entry 11). -/
structure Device where
  port : Option Word
  pending : Bool
  script : List Poll
  deriving DecidableEq, Repr

/-- Why a fault is taken. The effect of a fault is a next state with status `faulted` (60_exceptions.md R241,
log entry 16), so no step answers `Host.Outcome.fault`; these are the information of the dump (R242). -/
inductive Fault where
  /-- `InvalidInstruction(w)`: raised by a step at decode for the fetched word `w` at address `pc` (R240). Safe: the
  spec's own fault. -/
  | invalidInstruction (w pc : Word)
  /-- A `SW`, a `PUSH` or a device's port write to ROM while `ROM_WRITABLE = false` (20_memory.md R65, D13), by the
  instruction at `pc`, or before it in the device phase. Safe: nothing is stored. -/
  | romWrite (addr pc : Word)
  deriving DecidableEq, Repr

/-- Why a step has no meaning. -/
inductive Refusal where
  /-- An instruction the model gives no meaning yet, raised by `exec` alone. Safe. No arm raises it. -/
  | notModelled (mnemonic : String)
  deriving DecidableEq, Repr

/-- The register dump (R264): the ten registers and the word at `pc`, as they stand when the fault is taken. -/
structure Dump where
  regs : RegFile
  pc : Word
  sp : Word
  word : Word
  deriving DecidableEq, Repr

/-- What the machine does towards the devices and the harness, in order (R245, R247, R248, R254, R264). A device is
named by its place in registration order, from 0. -/
inductive Event where
  | tick (dev : Nat)
  | trySend (dev : Nat) (answer : Option Byte)
  | portWrite (dev : Nat) (addr value : Word)
  | receive (dev : Nat) (data : Byte)
  | pendingCleared (dev : Nat)
  | dump (fault : Fault) (d : Dump)
  | shutdown (dev : Nat)
  deriving DecidableEq, Repr

/-- Where the run loop of R253 stands: before or after its exit and the `shutdown` calls. -/
inductive RunPhase where
  | looping
  | ended
  deriving DecidableEq, Repr

/-- The whole state. `params` is not state by R35 (no step changes it); it is an argument of the model, held here
because `exec` and `step` take no other (log entry 5). `events` is the model's own record of outputs (log entry 18). -/
structure State where
  regs : RegFile
  pc : Word
  sp : Word
  status : Status
  mem : Memory
  devices : List Device
  cycles : Nat
  phase : RunPhase
  events : List Event
  params : Params
  deriving DecidableEq, Repr

/-- The machine right after reset (R37, R290), no image loaded and no device registered (log entries 10, 20). -/
def State.reset : State where
  regs := ⟨regReset, regReset, regReset, regReset, regReset, regReset, regReset, regReset⟩
  pc := pcReset
  sp := spReset
  status := .running
  mem := []
  devices := []
  cycles := 0
  phase := .looping
  events := []
  params := defaultParams

end Sys2Proof.Machine
end

