-- ==== Sys2Proof/Machine/Ops.lean ====
section
/-! DEFINITION. The named operations over memory and registers: the bus (20_memory.md), the register file, the
updates of a state, and taking the one fault (60_exceptions.md R240 to R242). There is no trap entry and no return
from one (R256, R257), so nothing stands beside `takeFault`. -/

namespace Sys2Proof.Machine

/-! ### Memory as a list in canonical form -/

/-- The word a memory list holds at a key; `memFill` where it lists nothing (R62, R81). -/
def Memory.lookup : Memory → Nat → Word
  | [], _ => memFill
  | (k, v) :: rest, n => if k = n then v else Memory.lookup rest n

/-- A memory list with the word at one key replaced, in canonical form again. -/
def Memory.insert : Memory → Nat → Word → Memory
  | [], n, v => if v = memFill then [] else [(n, v)]
  | (k, u) :: rest, n, v =>
    if k < n then (k, u) :: Memory.insert rest n v
    else if k = n then (if v = memFill then rest else (n, v) :: rest)
    else (if v = memFill then (k, u) :: rest else (n, v) :: (k, u) :: rest)

/-- `MemRead(addr, 1)` (R62): total, no side effect. -/
def Memory.read (m : Memory) (a : Word) : Word := Memory.lookup m a.toNat

/-- `MemWrite(addr, 1, v)` (R62): replaces one word. -/
def Memory.write (m : Memory) (a v : Word) : Memory := Memory.insert m a.toNat v

/-- Keys from `lo` on, strictly rising, below 65536, no word equal to `memFill`. -/
def Memory.wfFrom : Nat → Memory → Bool
  | _, [] => true
  | lo, (k, v) :: rest => decide (lo ≤ k) && decide (k < Config.memWords) && v != memFill && Memory.wfFrom (k + 1) rest

/-- The canonical form: equal memories are equal lists. -/
def Memory.wf (m : Memory) : Bool := Memory.wfFrom 0 m

/-! ### The region map (R63, R64): a convention that only `ROM_WRITABLE = false` gives an effect -/

/-- The regions of R63. -/
inductive Region where
  | rom | vram | ram | keyboardPort | unnamed
  deriving DecidableEq, Repr

/-- The region an address lies in (R63). -/
def regionOf (a : Word) : Region :=
  if a.toNat ≤ Config.romLast then .rom
  else if a.toNat ≤ Config.vramLast then .vram
  else if a.toNat ≤ Config.ramLast then .ram
  else if a = Config.kbdPort then .keyboardPort
  else .unnamed

/-! ### The register file -/

/-- `x[i]` (R11, R21). -/
def RegFile.get (f : RegFile) : Reg → Word
  | .A => f.A
  | .B => f.B
  | .C => f.C
  | .D => f.D
  | .E => f.E
  | .HL => f.HL
  | .SR => f.SR
  | .FLAG => f.FLAG

/-- `x[i] <- v` (R11): all 16 bits; no register is hardwired (R20). -/
def RegFile.set (f : RegFile) (r : Reg) (v : Word) : RegFile :=
  match r with
  | .A => { f with A := v }
  | .B => { f with B := v }
  | .C => { f with C := v }
  | .D => { f with D := v }
  | .E => { f with E := v }
  | .HL => { f with HL := v }
  | .SR => { f with SR := v }
  | .FLAG => { f with FLAG := v }

/-! ### Reads and updates of a state -/

/-- The value of a register. -/
def State.reg (s : State) (r : Reg) : Word := s.regs.get r

/-- The state with a register written. -/
def State.setReg (s : State) (r : Reg) (v : Word) : State := { s with regs := s.regs.set r v }

/-- `pc <- target`. -/
def State.setPc (s : State) (v : Word) : State := { s with pc := v }

/-- `sp <- v`. -/
def State.setSp (s : State) (v : Word) : State := { s with sp := v }

/-- The state with another run status. -/
def State.setStatus (s : State) (st : Status) : State := { s with status := st }

/-- One read of the bus (R62). -/
def State.memRead (s : State) (a : Word) : Word := s.mem.read a

/-- One write of the bus that stores (R62). -/
def State.poke (s : State) (a v : Word) : State := { s with mem := s.mem.write a v }

/-- The state with one more output event. -/
def State.emit (s : State) (e : Event) : State := { s with events := s.events ++ [e] }

/-- The state with other devices. -/
def State.setDevices (s : State) (ds : List Device) : State := { s with devices := ds }

/-- One more completed cycle (R253). -/
def State.countCycle (s : State) : State := { s with cycles := s.cycles + 1 }

/-- The state with the run loop elsewhere. -/
def State.setPhase (s : State) (p : RunPhase) : State := { s with phase := p }

/-- The normal advance, `pc <- trunc16(pc + 1)` (40_execution_cycle.md R155). -/
def State.advance (s : State) : State := s.setPc (s.pc + 1)

/-! ### The fault -/

/-- The register dump of a state (R264). -/
def State.dump (s : State) : Dump := ⟨s.regs, s.pc, s.sp, s.memRead s.pc⟩

/-- Taking the fault (R241, R264): status `faulted`, the dump as an output, nothing else changes; `pc` stays at the
word that faulted. -/
def takeFault (f : Fault) (s : State) : State := (s.emit (.dump f s.dump)).setStatus .faulted

/-! ### Stores -/

/-- Whether a write to an address stores (R65): always by default. -/
def State.canWrite (s : State) (a : Word) : Bool := s.params.romWritable || regionOf a != .rom

/-- A store by an instruction: the word is written and the rest of the effect follows, or, where ROM is not writable
(`ROM_WRITABLE = false`), the fault is taken and nothing is stored (R65, D13). -/
def busWrite (a v : Word) (rest : State → State) (s : State) : State :=
  if s.canWrite a then rest (s.poke a v) else takeFault (.romWrite a s.pc) s

end Sys2Proof.Machine
end

