-- ==== Sys2Proof/Machine/Operands.lean ====
section
/-! DEFINITION. The variable operand (40_execution_cycle.md R153, 43_load_store.md R192): the one operand form of the
hardware, used as a value, a memory address or a jump target. -/

namespace Sys2Proof.Machine

/-- `zext_16(imm8)` (00_scope.md R11; 30_encoding.md R110). -/
def zext16 (b : Byte) : Word := b.setWidth 16

/-- The variable operand of an instruction: a register (`mode = 0`) or an immediate (`mode = 1`). -/
inductive Operand where
  | reg (r : Reg)
  | imm (i : Byte)
  deriving DecidableEq, Repr

/-- `operand` of R153: `zext_16(imm8)` when `mode = 1`, `x[reg2]` when `mode = 0`. -/
def operandValue (o : Operand) (s : State) : Word :=
  match o with
  | .reg r => s.reg r
  | .imm i => zext16 i

end Sys2Proof.Machine
end

