-- ==== Sys2Proof/Machine/Devices.lean ====
section
/-! DEFINITION. The device phase of a cycle (60_exceptions.md R244 to R252): each registered device in order is polled,
and a pending device's byte is written to its port word. No register changes; a device writes nothing itself. -/

namespace Sys2Proof.Machine

/-- A device that raises nothing and has nothing to send. -/
def Poll.silent : Poll := ⟨false, none⟩

/-- What the environment has the device do in this cycle (R252 (c)); silent after the script. -/
def Device.nextPoll (d : Device) : Poll := d.script.headD Poll.silent

/-- `tick` (R245, R246): the device may set its pending flag; a device without a port never does (R252). -/
def Device.ticked (d : Device) : Device :=
  { d with pending := d.pending || (d.nextPoll.raises && d.port.isSome), script := d.script.tail }

/-- The flag cleared by the engine after the delivery (R246, R248, R249). -/
def Device.cleared (d : Device) : Device := { d with pending := false }

/-- The delivery for a device whose flag is set (R248, R249, R250): `trySend()`; for `Some b` the port write of
`zext_16(b)`, then `receive`; then the flag is cleared. A port write that a strict ROM refuses takes the fault with
nothing stored (R65; log entry 26). -/
def deliver (n : Nat) (d : Device) (answer : Option Byte) (s : State) : Device × State :=
  let s1 := s.emit (.trySend n answer)
  match answer, d.port with
  | some b, some p =>
    if s1.canWrite p then
      (d.cleared,
        (((s1.poke p (zext16 b)).emit (.portWrite n p (zext16 b))).emit (.receive n b)).emit (.pendingCleared n))
    else (d, takeFault (.romWrite p s1.pc) s1)
  | _, _ => (d.cleared, s1.emit (.pendingCleared n))

/-- One device fully serviced (R247): `tick`, then the delivery if its flag is now set. -/
def serviceDevice (n : Nat) (d : Device) (s : State) : Device × State :=
  if d.ticked.pending then deliver n d.ticked d.nextPoll.answer (s.emit (.tick n)) else (d.ticked, s.emit (.tick n))

/-- The devices from place `n` on, strictly in registration order (R247, R251). A fault taken by a port write stops the
phase. -/
def serviceFrom (n : Nat) : List Device → State → List Device × State
  | [], s => ([], s)
  | d :: ds, s =>
    match s.status with
    | .running =>
      let one := serviceDevice n d s
      let rest := serviceFrom (n + 1) ds one.2
      (one.1 :: rest.1, rest.2)
    | _ => (d :: ds, s)

/-- The device phase of a cycle (R247). -/
def devicePhase (s : State) : State :=
  let r := serviceFrom 0 s.devices s
  r.2.setDevices r.1

end Sys2Proof.Machine
end

