-- ==== Sys2Proof/Machine/Flags.lean ====
section
/-! DEFINITION. The condition bits of `FLAG` (10_state.md R25) and the flag updates (40_execution_cycle.md R156,
R157). A helper changes the one bit it names. -/

namespace Sys2Proof.Machine

/-- A word with bit `n` replaced. -/
def putBit (n : Nat) (b : Bool) (v : Word) : Word :=
  if b then v ||| (1#16 <<< n) else v &&& ~~~(1#16 <<< n)

/-- `FLAG.Z`, bit 0 (R25). -/
def State.flagZ (s : State) : Bool := (s.reg .FLAG).getLsbD 0

/-- `FLAG.N`, bit 1 (R25). -/
def State.flagN (s : State) : Bool := (s.reg .FLAG).getLsbD 1

/-- `FLAG.C`, bit 2 (R25). -/
def State.flagC (s : State) : Bool := (s.reg .FLAG).getLsbD 2

/-- `SetZ(r)` (R156): set and cleared. -/
def setZ (r : Word) (s : State) : State := s.setReg .FLAG (putBit 0 (r == 0) (s.reg .FLAG))

/-- `SetC(c)` (R157). -/
def setC (c : Bool) (s : State) : State := s.setReg .FLAG (putBit 2 c (s.reg .FLAG))

/-- `SetN(r)`: `FLAG.N <- r[15]` under `ALU_WRITES_NEGATIVE = true`, nothing under the default (R157). -/
def setN (r : Word) (s : State) : State :=
  if s.params.aluWritesNegative then s.setReg .FLAG (putBit 1 (r.getLsbD 15) (s.reg .FLAG)) else s

/-- The carry out of bit 15 of an exact sum (R157, D5). -/
def carryOut (t : Nat) : Bool := decide (t > 0xFFFF)

/-- The borrow of a subtraction (R157, D6). -/
def borrow (x y : Word) : Bool := decide (x.toNat < y.toNat)

/-- `trunc16(t)` (R11). -/
def trunc16 (t : Nat) : Word := BitVec.ofNat 16 t

end Sys2Proof.Machine
end

