-- ==== Sys2Proof/Machine/Alu.lean ====
section
/-! DEFINITION. `ADD`, `SUB`, `AND`, `ADDC`, `NOT` (44_alu.md R200 to R205). Sources and carry-in are read first, then
the result is written, then the flags are updated on top of it, then `pc` advances (40_execution_cycle.md R158). -/

namespace Sys2Proof.Machine

/-- The write order of R158: result, Zero, Carry where the instruction writes it, Negative under its parameter. -/
def aluWrite (d : Reg) (r : Word) (carry : Option Bool) (s : State) : State :=
  let s1 := setZ r (s.setReg d r)
  let s2 := match carry with
    | some c => setC c s1
    | none => s1
  (setN r s2).advance

/-- R201 and R204: the exact sum with a carry-in (0 for `ADD`). -/
def exactSum (x y : Word) (cin : Bool) : Nat := x.toNat + y.toNat + cin.toNat

/-- R201 and R204. -/
def addInto (d : Reg) (o : Operand) (cin : Bool) (s : State) : State :=
  aluWrite d (trunc16 (exactSum (s.reg d) (operandValue o s) cin))
    (some (carryOut (exactSum (s.reg d) (operandValue o s) cin))) s

/-- R202. -/
def subFrom (d : Reg) (o : Operand) (s : State) : State :=
  aluWrite d (s.reg d - operandValue o s) (some (borrow (s.reg d) (operandValue o s))) s

/-- R203: Carry is kept. -/
def andInto (d : Reg) (o : Operand) (s : State) : State := aluWrite d (s.reg d &&& operandValue o s) none s

/-- R205: the destination is not a source; Carry is kept. -/
def notInto (d : Reg) (o : Operand) (s : State) : State := aluWrite d (~~~(operandValue o s)) none s

def execAddReg (d src : Reg) (s : State) : Host.Outcome State Fault Refusal := .next (addInto d (.reg src) false s)

def execAddImm (d : Reg) (i : Byte) (s : State) : Host.Outcome State Fault Refusal :=
  .next (addInto d (.imm i) false s)

def execSubReg (d src : Reg) (s : State) : Host.Outcome State Fault Refusal := .next (subFrom d (.reg src) s)

def execSubImm (d : Reg) (i : Byte) (s : State) : Host.Outcome State Fault Refusal := .next (subFrom d (.imm i) s)

def execAndReg (d src : Reg) (s : State) : Host.Outcome State Fault Refusal := .next (andInto d (.reg src) s)

def execAndImm (d : Reg) (i : Byte) (s : State) : Host.Outcome State Fault Refusal := .next (andInto d (.imm i) s)

def execAddcReg (d src : Reg) (s : State) : Host.Outcome State Fault Refusal :=
  .next (addInto d (.reg src) s.flagC s)

def execAddcImm (d : Reg) (i : Byte) (s : State) : Host.Outcome State Fault Refusal :=
  .next (addInto d (.imm i) s.flagC s)

def execNotReg (d src : Reg) (s : State) : Host.Outcome State Fault Refusal := .next (notInto d (.reg src) s)

def execNotImm (d : Reg) (i : Byte) (s : State) : Host.Outcome State Fault Refusal := .next (notInto d (.imm i) s)

end Sys2Proof.Machine
end

