-- ==== Sys2Proof/Machine/Jump.lean ====
section
/-! DEFINITION. `JMPZ` and `JMPN` (45_jump.md R220 to R222): absolute targets, nothing saved, no delay slot. -/

namespace Sys2Proof.Machine

/-- `pc <- operand` when the condition holds, the normal advance otherwise (R220, R221). -/
def jumpIf (taken : Bool) (o : Operand) (s : State) : State :=
  if taken then s.setPc (operandValue o s) else s.advance

def execJmpzReg (src : Reg) (s : State) : Host.Outcome State Fault Refusal := .next (jumpIf s.flagZ (.reg src) s)

def execJmpzImm (i : Byte) (s : State) : Host.Outcome State Fault Refusal := .next (jumpIf s.flagZ (.imm i) s)

def execJmpnReg (src : Reg) (s : State) : Host.Outcome State Fault Refusal := .next (jumpIf s.flagN (.reg src) s)

def execJmpnImm (i : Byte) (s : State) : Host.Outcome State Fault Refusal := .next (jumpIf s.flagN (.imm i) s)

end Sys2Proof.Machine
end

