-- ==== Sys2Proof/Machine/LoadStore.lean ====
section
/-! DEFINITION. `LW` and `SW` (43_load_store.md R190, R191). -/

namespace Sys2Proof.Machine

/-- `ea <- operand; x[reg1] <- MemRead(ea, 1)` (R190). -/
def loadWord (d : Reg) (o : Operand) (s : State) : State := (s.setReg d (s.memRead (operandValue o s))).advance

/-- `ea <- operand; MemWrite(ea, 1, x[reg1])` (R191). -/
def storeWord (o : Operand) (src : Reg) (s : State) : State :=
  busWrite (operandValue o s) (s.reg src) State.advance s

def execLwReg (d a : Reg) (s : State) : Host.Outcome State Fault Refusal := .next (loadWord d (.reg a) s)

def execLwImm (d : Reg) (i : Byte) (s : State) : Host.Outcome State Fault Refusal := .next (loadWord d (.imm i) s)

def execSwReg (a src : Reg) (s : State) : Host.Outcome State Fault Refusal := .next (storeWord (.reg a) src s)

def execSwImm (i : Byte) (src : Reg) (s : State) : Host.Outcome State Fault Refusal :=
  .next (storeWord (.imm i) src s)

end Sys2Proof.Machine
end

