-- ==== Sys2Proof/Machine/Move.lean ====
section
/-! DEFINITION. `MW`, `MWL`, `MWH` (42_move.md R180 to R182): no memory, no flag. -/

namespace Sys2Proof.Machine

/-- `x[reg1] <- operand` (R180). -/
def moveTo (d : Reg) (o : Operand) (s : State) : State := (s.setReg d (operandValue o s)).advance

def execMwReg (d src : Reg) (s : State) : Host.Outcome State Fault Refusal := .next (moveTo d (.reg src) s)

def execMwImm (d : Reg) (i : Byte) (s : State) : Host.Outcome State Fault Refusal := .next (moveTo d (.imm i) s)

/-- `HL := (HL & 0xFF00) | imm8` (R181). -/
def execMwl (i : Byte) (s : State) : Host.Outcome State Fault Refusal :=
  .next (s.setReg .HL ((s.reg .HL &&& 0xFF00) ||| zext16 i)).advance

/-- `HL := (HL & 0x00FF) | (imm8 << 8)` (R182). -/
def execMwh (i : Byte) (s : State) : Host.Outcome State Fault Refusal :=
  .next (s.setReg .HL ((s.reg .HL &&& 0x00FF) ||| (zext16 i <<< 8))).advance

end Sys2Proof.Machine
end

