-- ==== Sys2Proof/Machine/Stack.lean ====
section
/-! DEFINITION. `PUSH` and `POP` (46_stack.md R230, R231): a full-descending stack, no bounds, no stack fault. -/

namespace Sys2Proof.Machine

/-- R230: the operand is sampled, `sp` decreases, the write uses the new `sp`. -/
def pushValue (o : Operand) (s : State) : State :=
  busWrite (s.sp - 1) (operandValue o s) (fun t => (t.setSp (s.sp - 1)).advance) s

/-- R231: the read uses the old `sp`, then `sp` increases. -/
def popInto (d : Reg) (s : State) : State := ((s.setReg d (s.memRead s.sp)).setSp (s.sp + 1)).advance

def execPushReg (src : Reg) (s : State) : Host.Outcome State Fault Refusal := .next (pushValue (.reg src) s)

def execPushImm (i : Byte) (s : State) : Host.Outcome State Fault Refusal := .next (pushValue (.imm i) s)

def execPop (d : Reg) (s : State) : Host.Outcome State Fault Refusal := .next (popInto d s)

end Sys2Proof.Machine
end

