-- ==== Sys2Proof/Machine/System.lean ====
section
/-! DEFINITION. `NOP` and `HALT` (41_system.md R170, R171). -/

namespace Sys2Proof.Machine

/-- `NOP` (R170): only `pc` advances. -/
def execNop (s : State) : Host.Outcome State Fault Refusal := .next s.advance

/-- `HALT` (R171): `status <- Halted`, `pc` unchanged. -/
def execHalt (s : State) : Host.Outcome State Fault Refusal := .next (s.setStatus .halted)

end Sys2Proof.Machine
end

