-- ==== Sys2Proof/Machine/Dispatch.lean ====
section
/-! DEFINITION. The dispatch table (40_execution_cycle.md R154): one arm per form of the opcode table. -/

namespace Sys2Proof.Machine

-- R154
def exec (i : Instr) (s : State) : Host.Outcome State Fault Refusal :=
  match i with
  | .nop => Sys2Proof.Machine.execNop s
  | .halt => Sys2Proof.Machine.execHalt s
  | .mwReg d r => Sys2Proof.Machine.execMwReg d r s
  | .mwImm d k => Sys2Proof.Machine.execMwImm d k s
  | .mwl k => Sys2Proof.Machine.execMwl k s
  | .mwh k => Sys2Proof.Machine.execMwh k s
  | .lwReg d a => Sys2Proof.Machine.execLwReg d a s
  | .lwImm d k => Sys2Proof.Machine.execLwImm d k s
  | .swReg a r => Sys2Proof.Machine.execSwReg a r s
  | .swImm k r => Sys2Proof.Machine.execSwImm k r s
  | .addReg d r => Sys2Proof.Machine.execAddReg d r s
  | .addImm d k => Sys2Proof.Machine.execAddImm d k s
  | .subReg d r => Sys2Proof.Machine.execSubReg d r s
  | .subImm d k => Sys2Proof.Machine.execSubImm d k s
  | .andReg d r => Sys2Proof.Machine.execAndReg d r s
  | .andImm d k => Sys2Proof.Machine.execAndImm d k s
  | .addcReg d r => Sys2Proof.Machine.execAddcReg d r s
  | .addcImm d k => Sys2Proof.Machine.execAddcImm d k s
  | .notReg d r => Sys2Proof.Machine.execNotReg d r s
  | .notImm d k => Sys2Proof.Machine.execNotImm d k s
  | .jmpzReg r => Sys2Proof.Machine.execJmpzReg r s
  | .jmpzImm k => Sys2Proof.Machine.execJmpzImm k s
  | .jmpnReg r => Sys2Proof.Machine.execJmpnReg r s
  | .jmpnImm k => Sys2Proof.Machine.execJmpnImm k s
  | .pushReg r => Sys2Proof.Machine.execPushReg r s
  | .pushImm k => Sys2Proof.Machine.execPushImm k s
  | .pop d => Sys2Proof.Machine.execPop d s

end Sys2Proof.Machine
end

