-- ==== Sys2Proof/Machine/Cycle.lean ====
section
/-! DEFINITION. The CPU's step (40_execution_cycle.md R150 to R152, R159), the cycle and the run loop
(60_exceptions.md R247, R253, R254). -/

namespace Sys2Proof.Machine

/-- The fetch (R151): one read of the bus at `pc`, from the same array as data. -/
def fetch (s : State) : Word := s.memRead s.pc

/-- `Step()` (R150): nothing unless `Running` (R159); a word that is not an instruction takes the fault and executes
nothing (R152, R240); otherwise the row of the dispatch table is executed. -/
def cpuStep (s : State) : Host.Outcome State Fault Refusal :=
  match s.status with
  | .running =>
    match decode s.params.decodePolicy (fetch s) with
    | .ok i => exec i s
    | .error _ => .next (takeFault (.invalidInstruction (fetch s) s.pc) s)
  | _ => .next s

/-- An outcome with its next state changed. -/
def mapNext (f : State → State) : Host.Outcome State Fault Refusal → Host.Outcome State Fault Refusal
  | .next s => .next (f s)
  | .fault r => .fault r
  | .refused r => .refused r

/-- `Cycle()` and the count of it (R247, R253): every device serviced, then exactly one `Step()`. -/
def cycle (s : State) : Host.Outcome State Fault Refusal := mapNext State.countCycle (cpuStep (devicePhase s))

/-- The guard of the run loop (R253): `status = Running and k < CYCLE_CAP`. -/
def State.mayCycle (s : State) : Bool := decide (s.status = .running) && decide (s.cycles < s.params.cycleCap)

/-- The exit of the run loop (R253, R254): `shutdown` on every device once, in registration order. -/
def shutdownAll (s : State) : State :=
  { s with phase := .ended, events := s.events ++ (List.range s.devices.length).map Event.shutdown }

/-- One transition of `Run()` (R253): a cycle while the guard holds, then the exit, then nothing. -/
def runStep (s : State) : Host.Outcome State Fault Refusal :=
  match s.phase with
  | .ended => .next s
  | .looping => if s.mayCycle then cycle s else .next (shutdownAll s)

/-- A state with a word placed where the next fetch reads (20_memory.md R79: a program is loaded from outside). -/
def State.placeAtPc (s : State) (w : Word) : State := s.poke s.pc w

end Sys2Proof.Machine
end

