-- ==== Sys2Proof/Machine/Step.lean ====
section
/-! DEFINITION. The step of the machine, and an opcode-table word placed where it fetches. -/

namespace Sys2Proof.Machine

/-- One step: one transition of the run loop (60_exceptions.md R253), which is one cycle while the run goes on. -/
def step (s : State) : Host.Outcome State Fault Refusal := runStep s

/-- `s` with an opcode-table word stored at the address the next instruction is fetched from. It stands for the load of
a program from outside the machine (20_memory.md R79; log entry 20). -/
def State.withFetchWord (s : State) (nbits w : Nat) : State := s.placeAtPc (tableWord nbits w)

end Sys2Proof.Machine
end

