-- ==== Sys2Proof/Machine/Assembler.lean ====
section
/-! DEFINITION. The assembler at its interface (00_scope.md R5; 30_encoding.md R116 to R125, R131): source text to words.
It is software, not part of the hardware block; nothing of the machine uses it. Text is a list of characters. What the
spec leaves open here is decision D24 and log entries 31 and 33 to 37. -/

namespace Sys2Proof.Assembler

/-- A name or a token of the source. -/
abbrev Token := List Char

/-- The error names of R131, and one name of the model's own for source text the spec gives no rule for (duplicate
definitions: 93_implementation_defined.md I14). -/
inductive ErrorKind where
  | fileOpen | fileRead
  | unknownInstruction | operandCount | operandKind | expectedComma | unknownRegister | unknownLabel
  | unknownConstant | numericLiteral | directive | imageTooSmall
  | unspecifiedSource
  deriving DecidableEq, Repr

/-- An error with the source file name and the 1-based line number (R131). -/
structure Error where
  kind : ErrorKind
  file : Token
  line : Nat
  deriving DecidableEq, Repr

/-- The one thing a line holds (R116), its operands not parsed yet. -/
inductive Line where
  | empty
  | label (name : Token)
  | org (value : Token)
  | const (name value : Token)
  | target (name : Token)
  | instr (mnemonic : Token) (rest : List Char)
  deriving DecidableEq, Repr

/-! ### Text -/

/-- The whitespace of a line: space, tab, carriage return. DESIGN CHOICE: the spec does not say which characters are
whitespace (91_not_in_source.md N14); log entry 33. -/
def isBlank (c : Char) : Bool := c == ' ' || c == '\t' || c == '\r'

/-- The pieces of a text between the characters of a kind. -/
def splitAt (p : Char → Bool) : List Char → List (List Char)
  | [] => [[]]
  | c :: cs =>
    if p c then [] :: splitAt p cs
    else match splitAt p cs with
      | [] => [[c]]
      | t :: ts => (c :: t) :: ts

def trim (l : List Char) : List Char := ((l.dropWhile isBlank).reverse.dropWhile isBlank).reverse

/-- The whitespace-separated tokens of a text (R117). -/
def tokens (l : List Char) : List Token := (splitAt isBlank l).filter (fun t => !t.isEmpty)

/-- A line without its trailing `;` comment and surrounding blanks (R116). -/
def strip (l : List Char) : List Char := trim (l.takeWhile (fun c => c != ';'))

def orgWord : Token := ['.', 'o', 'r', 'g']

def constWord : Token := ['c', 'o', 'n', 's', 't']

/-- A label definition's name: the leading `.` is no part of it (R119, C4). -/
def withoutSigil : Token → Token
  | '.' :: name => name
  | name => name

/-- The kind of a line (R116); none where the spec gives no rule for the text. -/
def parseLine (raw : List Char) : Option Line :=
  let l := strip raw
  match tokens l with
  | [] => some .empty
  | t :: args =>
    if t = orgWord then (match args with | [v] => some (.org v) | _ => none)
    else if t = constWord then (match args with | [n, v] => some (.const n v) | _ => none)
    else if t.head? = some '@' then
      (if args.isEmpty && t.length > 1 then some (.target t.tail) else none)
    else if t.getLast? = some ':' then
      (if args.isEmpty && !(withoutSigil t.dropLast).isEmpty then some (.label (withoutSigil t.dropLast)) else none)
    else some (.instr t (trim (l.drop t.length)))

/-! ### Numbers (R118) -/

def digitValue (c : Char) : Option Nat :=
  if '0' ≤ c && c ≤ '9' then some (c.toNat - 48)
  else if 'a' ≤ c && c ≤ 'f' then some (c.toNat - 87)
  else if 'A' ≤ c && c ≤ 'F' then some (c.toNat - 55)
  else none

/-- A non-empty string of digits in a base, most significant digit first. -/
def digitsValue (base : Nat) : List Char → Option Nat
  | [] => none
  | l => l.foldl (fun acc c => match acc, digitValue c with
      | some n, some d => if d < base then some (n * base + d) else none
      | _, _ => none) (some 0)

/-- The C convention for the base: `0x` or `0X`, a leading `0` before digits, decimal otherwise (R118). A leading
`+` makes no literal: DESIGN CHOICE, log entry 36. -/
def literalValue : Token → Option Nat
  | '0' :: 'x' :: ds => digitsValue 16 ds
  | '0' :: 'X' :: ds => digitsValue 16 ds
  | '0' :: d :: ds => digitsValue 8 (d :: ds)
  | ds => digitsValue 10 ds

/-- Whether a token is meant as a number: it begins with a digit or a sign. An operand or `.org` value that is no register's
or constant's name and no readable literal is `NumericLiteralError` if so and an unknown name otherwise: DESIGN CHOICE,
the spec does not say which of them is a bad literal; log entry 36. -/
def looksNumeric (t : Token) : Bool :=
  match t.head? with
  | some c => c.isDigit || c == '-' || c == '+'
  | none => false

/-! ### Names -/

abbrev Table := List (Token × Nat)

/-- Labels and constants (R119, R122). -/
structure Symbols where
  labels : Table
  constants : Table
  deriving DecidableEq, Repr

def Table.get (t : Table) (name : Token) : Option Nat := t.lookup name

/-- A new entry; none for a duplicate definition, which the spec leaves open (I14). -/
def Table.define (t : Table) (name : Token) (v : Nat) : Option Table :=
  if (t.lookup name).isSome then none else some ((name, v) :: t)

/-- A token equal to a constant's name replaced with the value's decimal spelling (R117, R122). Only the tokens of an
instruction line are replaced, its mnemonic among them, after the kind of the line is known: DESIGN CHOICE, log
entry 35. -/
def substitute (constants : Table) (t : Token) : Token :=
  match constants.get t with
  | some v => Nat.toDigits 10 v
  | none => t

def registerNames : List (Token × Reg) :=
  [(['A'], .A), (['B'], .B), (['C'], .C), (['D'], .D), (['E'], .E), (['H', 'L'], .HL), (['S', 'R'], .SR),
   (['F', 'L', 'A', 'G'], .FLAG)]

def mnemonicNames : List (Token × Mnemonic) :=
  [(['N', 'O', 'P'], .NOP), (['H', 'A', 'L', 'T'], .HALT), (['M', 'W'], .MW), (['M', 'W', 'L'], .MWL),
   (['M', 'W', 'H'], .MWH), (['L', 'W'], .LW), (['S', 'W'], .SW), (['A', 'D', 'D'], .ADD), (['S', 'U', 'B'], .SUB),
   (['A', 'N', 'D'], .AND), (['A', 'D', 'D', 'C'], .ADDC), (['N', 'O', 'T'], .NOT), (['J', 'M', 'P', 'Z'], .JMPZ),
   (['J', 'M', 'P', 'N'], .JMPN), (['P', 'U', 'S', 'H'], .PUSH), (['P', 'O', 'P'], .POP)]

/-! ### Instructions -/

/-- An operand: a constant's name is replaced first, then a register name or a literal is read (R117, R118, R122). A name
that is none of these is an unknown register where only a register may stand, an unknown constant elsewhere. -/
def parseOperand (constants : Table) (registerOnly : Bool) (token : Token) : Except ErrorKind AsmOperand :=
  let t := substitute constants token
  match registerNames.lookup t with
  | some r => .ok (.reg r)
  | none =>
    if looksNumeric t then (match literalValue t with | some n => .ok (.lit n) | none => .error .numericLiteral)
    else .error (if registerOnly then .unknownRegister else .unknownConstant)

/-- Whether a shape admits only a register at a place (R104). -/
def registerOnlyAt : Shape → Nat → Bool
  | .registerOnly, _ => true
  | .regFirstRegOrImm, n => n == 0
  | .immOrRegSecond, n => n == 1
  | _, _ => false

def parseOperands (constants : Table) (sh : Shape) : Nat → List Token → Except ErrorKind (List AsmOperand)
  | _, [] => .ok []
  | n, t :: ts =>
    match parseOperand constants (registerOnlyAt sh n) t, parseOperands constants sh (n + 1) ts with
    | .ok o, .ok os => .ok (o :: os)
    | .error e, _ => .error e
    | _, .error e => .error e

/-- The instruction of a written one; none exactly where its operands do not fit (R104, R124). -/
def instrOf (i : AsmInstr) : Option Instr :=
  match i.mnemonic, i.operands with
  | .NOP, [] => some .nop
  | .HALT, [] => some .halt
  | .MW, [.reg d, .reg r] => some (.mwReg d r)
  | .MW, [.reg d, .lit n] => some (.mwImm d (BitVec.ofNat 8 n))
  | .MWL, [.lit n] => some (.mwl (BitVec.ofNat 8 n))
  | .MWH, [.lit n] => some (.mwh (BitVec.ofNat 8 n))
  | .LW, [.reg d, .reg r] => some (.lwReg d r)
  | .LW, [.reg d, .lit n] => some (.lwImm d (BitVec.ofNat 8 n))
  | .SW, [.reg a, .reg r] => some (.swReg a r)
  | .SW, [.lit n, .reg r] => some (.swImm (BitVec.ofNat 8 n) r)
  | .ADD, [.reg d, .reg r] => some (.addReg d r)
  | .ADD, [.reg d, .lit n] => some (.addImm d (BitVec.ofNat 8 n))
  | .SUB, [.reg d, .reg r] => some (.subReg d r)
  | .SUB, [.reg d, .lit n] => some (.subImm d (BitVec.ofNat 8 n))
  | .AND, [.reg d, .reg r] => some (.andReg d r)
  | .AND, [.reg d, .lit n] => some (.andImm d (BitVec.ofNat 8 n))
  | .ADDC, [.reg d, .reg r] => some (.addcReg d r)
  | .ADDC, [.reg d, .lit n] => some (.addcImm d (BitVec.ofNat 8 n))
  | .NOT, [.reg d, .reg r] => some (.notReg d r)
  | .NOT, [.reg d, .lit n] => some (.notImm d (BitVec.ofNat 8 n))
  | .JMPZ, [.reg r] => some (.jmpzReg r)
  | .JMPZ, [.lit n] => some (.jmpzImm (BitVec.ofNat 8 n))
  | .JMPN, [.reg r] => some (.jmpnReg r)
  | .JMPN, [.lit n] => some (.jmpnImm (BitVec.ofNat 8 n))
  | .PUSH, [.reg r] => some (.pushReg r)
  | .PUSH, [.lit n] => some (.pushImm (BitVec.ofNat 8 n))
  | .POP, [.reg d] => some (.pop d)
  | _, _ => none

/-- A written instruction checked: count, then kinds, then the range of its literals (R104, R117, R118). -/
def checkInstr (i : AsmInstr) : Except ErrorKind Instr :=
  if i.operands.length ≠ i.mnemonic.shape.arity then .error .operandCount
  else if !(i.mnemonic.shape.admits i.operands) then .error .operandKind
  else if !(i.operands.all AsmOperand.inRange) then .error .numericLiteral
  else match instrOf i with
    | some x => .ok x
    | none => .error .operandKind

/-- The operand texts of a line: between commas, blanks around a comma dropped; none for an empty text. DESIGN CHOICE: the
spec leaves the blanks around the comma open (91_not_in_source.md N14); log entry 33. -/
def operandTexts (rest : List Char) : List Token :=
  if rest.isEmpty then [] else (splitAt (fun c => c == ',') rest).map trim

/-- An instruction line (R117): two operands need the separating comma. A two-operand mnemonic with one operand and no
comma is `OperandCountError`: DESIGN CHOICE, log entry 31. -/
def parseInstr (constants : Table) (mnemonic : Token) (rest : List Char) : Except ErrorKind Instr :=
  match mnemonicNames.lookup (substitute constants mnemonic) with
  | none => .error .unknownInstruction
  | some m =>
    let texts := operandTexts rest
    if m.shape.arity = 2 && texts.length == 1 && (tokens rest).length > 1 then .error .expectedComma
    else if texts.any (fun t => (tokens t).length != 1) then .error .operandCount
    else if texts.length ≠ m.shape.arity then .error .operandCount
    else match parseOperands constants m.shape 0 texts with
      | .error e => .error e
      | .ok os => checkInstr ⟨m, os⟩

/-! ### The two passes (R123) -/

/-- The value of `.org`: a constant defined before the line first, then a literal up to the image limit (R121, C10). -/
def orgValue (constants : Table) (t : Token) : Except ErrorKind Nat :=
  match constants.get t with
  | some v => .ok v
  | none =>
    if looksNumeric t then
      match literalValue t with
      | some n => if n ≤ Config.romWords then .ok n else .error .numericLiteral
      | none => .error .numericLiteral
    else .error .unknownConstant

/-- `.org v` at a position: forward only (R121). -/
def orgMove (constants : Table) (t : Token) (pos : Nat) : Except ErrorKind Nat :=
  match orgValue constants t with
  | .error e => .error e
  | .ok v => if v < pos then .error .directive else .ok v

/-- The value of a `const` line: 8 bits (R118, R122). It is a literal; an earlier constant's name there is
`NumericLiteralError`: DESIGN CHOICE, log entry 34. -/
def constValue (t : Token) : Except ErrorKind Nat :=
  match literalValue t with
  | some n => if n < 256 then .ok n else .error .numericLiteral
  | none => .error .numericLiteral

/-- What one line does in pass 1: the new position and tables (R119, R121 to R123). The name of a label or a constant is any
token, a numeral too: DESIGN CHOICE, log entry 34. -/
def lineOne (pos : Nat) (sy : Symbols) : Line → Except ErrorKind (Nat × Symbols)
  | .empty => .ok (pos, sy)
  | .label n =>
    match sy.labels.define n pos with
    | some ls => .ok (pos, { sy with labels := ls })
    | none => .error .unspecifiedSource
  | .org v =>
    match orgMove sy.constants v pos with
    | .ok p => .ok (p, sy)
    | .error e => .error e
  | .const n v =>
    match constValue v with
    | .error e => .error e
    | .ok x =>
      match sy.constants.define n x with
      | some cs => .ok (pos, { sy with constants := cs })
      | none => .error .unspecifiedSource
  | .target _ => .ok (pos + 2, sy)
  | .instr _ _ => .ok (pos + 1, sy)

/-- The output of pass 1 (R123): the label and constant tables and the program length in words. -/
structure PassOutput where
  symbols : Symbols
  length : Nat
  deriving DecidableEq, Repr

/-- Pass 1 from a line, a position and the tables so far (R123). -/
def passOne (file : Token) : Nat → Nat → Symbols → List Line → Except Error PassOutput
  | _, pos, sy, [] => .ok ⟨sy, pos⟩
  | line, pos, sy, l :: ls =>
    match lineOne pos sy l with
    | .error e => .error ⟨e, file, line⟩
    | .ok r => passOne file (line + 1) r.1 r.2 ls

/-- The two words of `@label`: `MWH addr[15:8]` then `MWL addr[7:0]` (R120). -/
def labelWords (addr : Word) : List Word :=
  [encode (.mwh (addr.extractLsb' 8 8)), encode (.mwl (addr.extractLsb' 0 8))]

/-- The constants defined before the next line, given those before this one: what `.org` may name (R121). -/
def constantsAfter (defined : Table) : Line → Table
  | .const n v =>
    match constValue v with
    | .error _ => defined
    | .ok x => (defined.define n x).getD defined
  | .empty => defined
  | .label _ => defined
  | .org _ => defined
  | .target _ => defined
  | .instr _ _ => defined

/-- The words of one line in pass 2 (R117, R120, R121, R123), given the tables of pass 1 and the constants defined before
the line. A label's position is taken modulo 65536: DESIGN CHOICE for a program longer than memory, log entry 37. -/
def lineTwo (sy : Symbols) (defined : Table) (pos : Nat) : Line → Except ErrorKind (List Word)
  | .empty => .ok []
  | .label _ => .ok []
  | .const _ _ => .ok []
  | .org v =>
    match orgMove defined v pos with
    | .ok p => .ok (List.replicate (p - pos) (encode .nop))
    | .error e => .error e
  | .target n =>
    match sy.labels.get n with
    | some p => .ok (labelWords (BitVec.ofNat 16 p))
    | none => .error .unknownLabel
  | .instr m rest =>
    match parseInstr sy.constants m rest with
    | .ok i => .ok [encode i]
    | .error e => .error e

/-- Pass 2 from a line, a position and the constants defined so far: the words (R123). -/
def passTwo (file : Token) (sy : Symbols) : Nat → Nat → Table → List Line → Except Error (List Word)
  | _, _, _, [] => .ok []
  | line, pos, defined, l :: ls =>
    match lineTwo sy defined pos l with
    | .error e => .error ⟨e, file, line⟩
    | .ok ws =>
      match passTwo file sy (line + 1) (pos + ws.length) (constantsAfter defined l) ls with
      | .error e => .error e
      | .ok rest => .ok (ws ++ rest)

/-- The lines of a text; the first line with no rule is an error. -/
def parseLines (file : Token) : Nat → List (List Char) → Except Error (List Line)
  | _, [] => .ok []
  | line, raw :: rest =>
    match parseLine raw, parseLines file (line + 1) rest with
    | none, _ => .error ⟨.unspecifiedSource, file, line⟩
    | some _, .error e => .error e
    | some l, .ok ls => .ok (l :: ls)

/-- The words of parsed lines (R123). -/
def assembleLines (file : Token) (ls : List Line) : Except Error (List Word) :=
  match passOne file 1 0 ⟨[], []⟩ ls with
  | .error e => .error e
  | .ok out => passTwo file out.symbols 1 0 [] ls

/-- The requested image size in KiB (R125): padded with `NOP` words, an error when the program is longer. -/
def padImage (file : Token) (sizeKiB : Option Nat) (lines : Nat) (ws : List Word) : Except Error (List Word) :=
  match sizeKiB with
  | none => .ok ws
  | some k =>
    if ws.length > 512 * k then .error ⟨.imageTooSmall, file, lines⟩
    else .ok (ws ++ List.replicate (512 * k - ws.length) (encode .nop))

/-- Source text to the image's words (R116 to R125). -/
def assemble (file : Token) (source : List Char) (sizeKiB : Option Nat) : Except Error (List Word) :=
  match parseLines file 1 (splitAt (fun c => c == '\n') source) with
  | .error e => .error e
  | .ok ls =>
    match assembleLines file ls with
    | .error e => .error e
    | .ok ws => padImage file sizeKiB ls.length ws

/-- What the file system gives for a source file; opening and reading it are out of scope (00_scope.md R6 (a)). -/
inductive SourceFile where
  | cannotOpen
  | cannotRead
  | text (source : List Char)
  deriving DecidableEq, Repr

/-- A source file to the image's words, with the two file errors of R131. Their line number is 1: DESIGN CHOICE, log
entry 31. -/
def assembleFile (file : Token) (contents : SourceFile) (sizeKiB : Option Nat) : Except Error (List Word) :=
  match contents with
  | .cannotOpen => .error ⟨.fileOpen, file, 1⟩
  | .cannotRead => .error ⟨.fileRead, file, 1⟩
  | .text source => assemble file source sizeKiB

end Sys2Proof.Assembler
end

