-- ==== Sys2Proof/Machine/Boot.lean ====
section
/-! DEFINITION. Loading a program and the reset sequence (20_memory.md R70, R79, R80; 70_reset_and_hazards.md R290):
what the harness does before the first cycle. -/

namespace Sys2Proof.Machine

/-- The word of two bytes of the image file: the byte at the lower offset holds bits 7 to 0 (R70). -/
def wordOfBytes (lo hi : Byte) : Word := hi ++ lo

/-- The two file bytes of a word, offset order (R70, R80). -/
def bytesOfWord (w : Word) : List Byte := [w.extractLsb' 0 8, w.extractLsb' 8 8]

/-- The words of a file's bytes: no header, no length prefix; an odd number of bytes is refused (R80). -/
def wordsOfBytes : List Byte → Option (List Word)
  | [] => some []
  | [_] => none
  | lo :: hi :: rest => (wordsOfBytes rest).map (wordOfBytes lo hi :: ·)

/-- Why the loader refuses (R79, R80, D15, D27). -/
inductive LoadRefusal where
  /-- a file with an odd number of bytes -/
  | oddByteCount
  /-- a file with more than 65536 bytes -/
  | fileTooLong
  /-- `LOAD_ADDR > 0x7FFF` -/
  | loadAddrBeyondRom
  /-- `LOAD_ADDR + len > 0x8000` -/
  | imageLeavesRom
  deriving DecidableEq, Repr

/-- The image of a file (R80). -/
def imageOfFile (bytes : List Byte) : Except LoadRefusal (List Word) :=
  if bytes.length > 65536 then .error .fileTooLong
  else match wordsOfBytes bytes with
    | some ws => .ok ws
    | none => .error .oddByteCount

/-- `MemWrite(LOAD_ADDR + i, 1, IMAGE[i])` for each `i` (R79). -/
def copyImage : Nat → List Word → Memory → Memory
  | _, [], m => m
  | a, w :: ws, m => copyImage (a + 1) ws (m.write (BitVec.ofNat 16 a) w)

/-- `load(IMAGE, LOAD_ADDR)` (R79, R255), `LOAD_ADDR` 0 where none is given (00_scope.md R8): the image must
stay inside ROM, whatever `ROM_WRITABLE` says. -/
def loadImage (image : List Word) (loadAddr : Nat := defaultLoadAddr) (s : State) : Except LoadRefusal State :=
  if loadAddr > Config.romLast then .error .loadAddrBeyondRom
  else if loadAddr + image.length > Config.romWords then .error .imageLeavesRom
  else .ok { s with mem := copyImage loadAddr image s.mem }

/-- The reset sequence of R290 with its parameters (R8, R9), `LOAD_ADDR` 0 where none is given: memory
filled, the image loaded, the CPU at its reset values
(`pc` at 0 whatever `LOAD_ADDR` is), the devices registered in order with their flags clear, the cycle count 0. -/
def boot (p : Params) (devices : List Device) (image : List Word) (loadAddr : Nat := defaultLoadAddr) :
    Except LoadRefusal State :=
  loadImage image loadAddr { State.reset with params := p, devices := devices.map Device.cleared }

end Sys2Proof.Machine
end

