-- ==== Sys2Proof/Safety.lean ====
section
/-! DEFINITION. The terms claims are stated in: a live state, the invariants, what a step or an instruction leaves
unchanged, and completion. -/

namespace Sys2Proof.Machine

/-! ### States -/

/-- The next step is a cycle: the guard of the run loop holds (60_exceptions.md R253). -/
abbrev State.Live (s : State) : Prop :=
  s.phase = .looping ∧ s.status = .running ∧ s.cycles < s.params.cycleCap

/-- A store to the address is one that stores (20_memory.md R65): ROM is writable, or the address is not in ROM. -/
abbrev State.Storable (s : State) (a : Word) : Prop := s.params.romWritable = true ∨ 0x7FFF < a.toNat

/-- The invariant of every step: memory in canonical form, at most `CYCLE_CAP` cycles counted (R253), no pending flag
left set between cycles unless a fault cut a delivery short (R246, R248). -/
abbrev State.Inv (s : State) : Prop :=
  s.mem.wf = true ∧ s.cycles ≤ s.params.cycleCap ∧
    (s.status ≠ .faulted → ∀ d ∈ s.devices, d.pending = false)

def Event.isShutdown : Event → Bool
  | .shutdown _ => true
  | _ => false

def Event.isDump : Event → Bool
  | .dump _ _ => true
  | _ => false

/-- The `shutdown` calls of a run's end (R254): every device exactly once, in registration order. -/
def shutdownCalls (s : State) : List Event := (List.range s.devices.length).map Event.shutdown

/-- The invariant of the outputs (R254, R264): one dump exactly when faulted; no `shutdown` while the loop runs; once it
has ended, the `shutdown` calls come last, each device once and in order. -/
def State.OutputsInOrder (s : State) : Prop :=
  (s.events.filter Event.isDump).length = (if s.status = .faulted then 1 else 0) ∧
    (s.phase = .looping → s.events.filter Event.isShutdown = []) ∧
    (s.phase = .ended → ∃ before, s.events = before ++ shutdownCalls s ∧ before.filter Event.isShutdown = [])

/-! ### Frames -/

/-- Every register but those listed is as before. -/
def KeepsRegsBut (rs : List Reg) (s t : State) : Prop := ∀ r, r ∉ rs → t.reg r = s.reg r

/-- Every word of memory reads as before. -/
def KeepsMemory (s t : State) : Prop := ∀ a, t.memRead a = s.memRead a

/-- Every word of memory but the one stored to reads as before. -/
def KeepsMemoryBut (stored : Word) (s t : State) : Prop := ∀ a, a ≠ stored → t.memRead a = s.memRead a

/-- The devices, the cycle count, the run loop's place, the outputs and the parameters are as before. -/
def KeepsEngine (s t : State) : Prop :=
  t.devices = s.devices ∧ t.cycles = s.cycles ∧ t.phase = s.phase ∧ t.events = s.events ∧ t.params = s.params

/-- Registers, `pc`, `sp` and every word of memory are as before. -/
def KeepsCpuAndMemory (s t : State) : Prop := t.regs = s.regs ∧ t.pc = s.pc ∧ t.sp = s.sp ∧ t.mem = s.mem

/-! ### Instructions -/

/-- The instruction answers a next state, and the state satisfies `post`. -/
def Completes (i : Instr) (s : State) (post : State → Prop) : Prop := ∃ t, exec i s = .next t ∧ post t

/-- Two instructions, executed one after the other, load `HL` with a value and change nothing else but `pc`. -/
def LoadHL (i j : Instr) (v : Word) (s : State) : Prop :=
  ∃ t u, exec i s = .next t ∧ exec j t = .next u ∧ u.reg .HL = v ∧ KeepsRegsBut [.HL] s u ∧ u.pc = s.pc + 2 ∧
    u.sp = s.sp ∧ u.status = s.status ∧ KeepsMemory s u ∧ KeepsEngine s u

/-- A claim about the register form (its operand a register's value) and about the immediate form (its operand the
zero-extended immediate) of an instruction: R153. -/
def ForBothForms (s : State) (regForm : Reg → Instr) (immForm : Byte → Instr) (claim : Instr → Word → Prop) : Prop :=
  (∀ r, claim (regForm r) (s.reg r)) ∧ ∀ i, claim (immForm i) (zext16 i)

/-- The destination register of an instruction, if it has one (10_state.md R36). -/
def destOf : Instr → Option Reg
  | .mwReg d _ | .mwImm d _ | .lwReg d _ | .lwImm d _ | .addReg d _ | .addImm d _ | .subReg d _ | .subImm d _
  | .andReg d _ | .andImm d _ | .addcReg d _ | .addcImm d _ | .notReg d _ | .notImm d _ | .pop d => some d
  | .mwl _ | .mwh _ => some .HL
  | .nop | .halt | .swReg _ _ | .swImm _ _ | .jmpzReg _ | .jmpzImm _ | .jmpnReg _ | .jmpnImm _ | .pushReg _
  | .pushImm _ => none

/-- The five ALU mnemonics (44_alu.md R200). -/
def isAlu : Instr → Bool
  | .addReg _ _ | .addImm _ _ | .subReg _ _ | .subImm _ _ | .andReg _ _ | .andImm _ _ | .addcReg _ _ | .addcImm _ _
  | .notReg _ _ | .notImm _ _ => true
  | .nop | .halt | .mwReg _ _ | .mwImm _ _ | .mwl _ | .mwh _ | .lwReg _ _ | .lwImm _ _ | .swReg _ _ | .swImm _ _
  | .jmpzReg _ | .jmpzImm _ | .jmpnReg _ | .jmpnImm _ | .pushReg _ | .pushImm _ | .pop _ => false

/-- `PUSH` and `POP`. -/
def isStack : Instr → Bool
  | .pushReg _ | .pushImm _ | .pop _ => true
  | .nop | .halt | .mwReg _ _ | .mwImm _ _ | .mwl _ | .mwh _ | .lwReg _ _ | .lwImm _ _ | .swReg _ _ | .swImm _ _
  | .addReg _ _ | .addImm _ _ | .subReg _ _ | .subImm _ _ | .andReg _ _ | .andImm _ _ | .addcReg _ _ | .addcImm _ _
  | .notReg _ _ | .notImm _ _ | .jmpzReg _ | .jmpzImm _ | .jmpnReg _ | .jmpnImm _ => false

/-- `JMPZ` and `JMPN`. -/
def isJump : Instr → Bool
  | .jmpzReg _ | .jmpzImm _ | .jmpnReg _ | .jmpnImm _ => true
  | .nop | .halt | .mwReg _ _ | .mwImm _ _ | .mwl _ | .mwh _ | .lwReg _ _ | .lwImm _ _ | .swReg _ _ | .swImm _ _
  | .addReg _ _ | .addImm _ _ | .subReg _ _ | .subImm _ _ | .andReg _ _ | .andImm _ _ | .addcReg _ _ | .addcImm _ _
  | .notReg _ _ | .notImm _ _ | .pushReg _ | .pushImm _ | .pop _ => false

/-- What an ALU instruction with destination `d`, result `r` and carry (none where it writes none) does, bit by bit
(R156 to R158): the result in `d`; in `FLAG` bit 0 is Zero, bit 2 the carry where one is written, bit 1 the result's
bit 15 under `ALU_WRITES_NEGATIVE = true`, and every other bit that of the result when `d` is `FLAG`, the old one
otherwise; `pc` advances; nothing else changes. -/
def AluEffect (d : Reg) (r : Word) (carry : Option Bool) (s t : State) : Prop :=
  (∀ x, x ≠ .FLAG → t.reg x = if x = d then r else s.reg x) ∧
    (∀ n, n < 16 → (t.reg .FLAG).getLsbD n =
      let kept := (if d = .FLAG then r else s.reg .FLAG).getLsbD n
      if n = 0 then decide (r = 0)
      else if n = 1 then (if s.params.aluWritesNegative = true then r.getLsbD 15 else kept)
      else if n = 2 then carry.getD kept
      else kept) ∧
    t.pc = s.pc + 1 ∧ t.sp = s.sp ∧ t.status = s.status ∧ KeepsMemory s t ∧ KeepsEngine s t

/-- A word that raises `InvalidInstruction` when a running CPU fetches it under `strict`: the step takes the fault,
`pc` stays, no register or memory word changes (R240, R241). -/
def RaisesInvalidInstruction (w : Word) : Prop :=
  ∀ s : State, s.status = .running → s.params.decodePolicy = .strict → fetch s = w →
    ∃ t, cpuStep s = .next t ∧ t.status = .faulted ∧ KeepsCpuAndMemory s t

/-- The word is the instruction's, both ways (R106, R107). -/
def EncodedAs (i : Instr) (w : Nat) : Prop := (encode i).toNat = w ∧ decode .strict (encode i) = .ok i

/-! ### Deliveries -/

/-- The byte the engine delivers for a device in this cycle, with its port (R247 to R250). -/
def Device.delivery (d : Device) : Option (Word × Byte) :=
  if d.ticked.pending then
    match d.nextPoll.answer, d.port with
    | some b, some p => some (p, b)
    | _, _ => none
  else none

/-- The outputs of the service of the device at place `n` in this cycle, ROM writable (R247 to R250): the tick; if the flag
is then set, the poll, for a byte the port write and the acknowledgement, and the clearing of the flag. -/
def Device.outputs (n : Nat) (d : Device) : List Event :=
  if d.ticked.pending then
    match d.nextPoll.answer, d.port with
    | some b, some p =>
      [.tick n, .trySend n (some b), .portWrite n p (zext16 b), .receive n b, .pendingCleared n]
    | answer, _ => [.tick n, .trySend n answer, .pendingCleared n]
  else [.tick n]

end Sys2Proof.Machine
end

