-- ==== Sys2Proof/Certificates/Slice0/Obligations.lean ====
section
/-! DEFINITION. The statements for the provers. -/

open Sys2Proof Sys2Proof.Machine

/-! ### Encoding -/

/-- 30_encoding.md R102: the packing formula, the field-level round trip over every combination, and the word-level one
for every well-formed word (which fails for a register form with a low bit set). -/
def Obligations.EncodeFieldsRoundTrip : Prop :=
  (∀ (op : BitVec 4) (reg1 r : BitVec 3),
      (encodeRegFields op reg1 r).toNat = op.toNat * 4096 + 0 * 2048 + reg1.toNat * 256 + r.toNat * 32 ∧
        (decodeFields (encodeRegFields op reg1 r)).op = op ∧ (decodeFields (encodeRegFields op reg1 r)).mode = false ∧
        (decodeFields (encodeRegFields op reg1 r)).reg1 = reg1 ∧ (decodeFields (encodeRegFields op reg1 r)).reg2 = r) ∧
    (∀ (op : BitVec 4) (reg1 : BitVec 3) (i : Byte),
      (encodeImmFields op reg1 i).toNat = op.toNat * 4096 + 1 * 2048 + reg1.toNat * 256 + i.toNat ∧
        (decodeFields (encodeImmFields op reg1 i)).op = op ∧ (decodeFields (encodeImmFields op reg1 i)).mode = true ∧
        (decodeFields (encodeImmFields op reg1 i)).reg1 = reg1 ∧ (decodeFields (encodeImmFields op reg1 i)).imm8 = i) ∧
    (∀ w : Word, wellFormed w = true →
      let f := decodeFields w
      w = if f.mode = true then encodeImmFields f.op f.reg1 f.imm8 else encodeRegFields f.op f.reg1 f.reg2) ∧
    (∀ w : Word, (decodeFields w).mode = false → w.extractLsb' 0 5 ≠ 0 →
      wellFormed w = false ∧
        let f := decodeFields w
        encodeRegFields f.op f.reg1 f.reg2 ≠ w ∧
          (encodeRegFields f.op f.reg1 f.reg2) >>> 5 = w >>> 5)

/-- Decoding the word of an instruction gives it back, every operand at every value, under both decode policies; the
instruction is well-formed and so is its word. -/
def Obligations.DecodeEncodeAgree : Prop :=
  ∀ (policy : DecodePolicy) (i : Instr),
    decode policy (encode i) = .ok i ∧ wellFormed (encode i) = true ∧ i.wellFormed = true

/-- Under `strict` a decoded word is the encoder's output for what it decodes to, so no two words decode alike. -/
def Obligations.EncodeDecodeAgree : Prop :=
  ∀ (w : Word) (i : Instr), decode .strict w = .ok i → encode i = w

/-- The 27 match/mask rows: a word is accepted under `strict` exactly when a row covers it, no word is covered by two
rows, and the instruction decoded has the row's mnemonic. Rests on the spec's decision D1. -/
def Obligations.StrictAcceptsExactlyTheOpcodeForms : Prop :=
  opcodeForms.length = 27 ∧
    (∀ w : Word, (∃ i, decode .strict w = .ok i) ↔ ∃ f ∈ opcodeForms, f.covers w = true) ∧
    (∀ w : Word, ∀ f ∈ opcodeForms, ∀ g ∈ opcodeForms, f.covers w = true → g.covers w = true → f = g) ∧
    (∀ (w : Word) (i : Instr), ∀ f ∈ opcodeForms, f.covers w = true → decode .strict w = .ok i →
      i.source.mnemonic = f.mnemonic)

/-- Under `lenient` no word faults, a well-formed word decodes as under `strict`, and the unused fields are ignored.
Rests on the spec's decision D1. -/
def Obligations.LenientIgnoresUnusedFields : Prop :=
  (∀ w : Word, ∃ i, decode .lenient w = .ok i ∧ (wellFormed w = true → decode .strict w = .ok i) ∧
      i.source.mnemonic = Mnemonic.ofOpcode (decodeFields w).op) ∧
    (∀ w : Word, (decodeFields w).op = 0x0 → decode .lenient w = .ok .nop) ∧
    (∀ w : Word, (decodeFields w).op = 0x1 → decode .lenient w = .ok .halt) ∧
    (∀ w : Word, (decodeFields w).op = 0x3 → decode .lenient w = .ok (.mwl (w.extractLsb' 0 8))) ∧
    (∀ w : Word, (decodeFields w).op = 0x4 → decode .lenient w = .ok (.mwh (w.extractLsb' 0 8))) ∧
    (∀ w : Word, (decodeFields w).op = 0xF → decode .lenient w = .ok (.pop (Reg.ofIndex (w.extractLsb' 8 3)))) ∧
    (∀ w v : Word, (decodeFields w).op = (decodeFields v).op → (decodeFields w).mode = (decodeFields v).mode →
      w.extractLsb' 0 8 = v.extractLsb' 0 8 →
      ((decodeFields w).op = 0xC ∨ (decodeFields w).op = 0xD ∨ (decodeFields w).op = 0xE) →
      decode .lenient w = decode .lenient v) ∧
    (∀ w v : Word, (decodeFields w).mode = false → w.extractLsb' 5 11 = v.extractLsb' 5 11 →
      ((decodeFields w).op ≠ 0x3 ∧ (decodeFields w).op ≠ 0x4) → decode .lenient w = decode .lenient v)

/-- Words written out from the opcode table decode to the instructions they stand for, one or more per family. -/
def Obligations.SampleWordsDecode : Prop :=
  decode .strict 0x0000 = .ok .nop ∧ decode .strict 0x1000 = .ok .halt ∧
    decode .strict 0x2805 = .ok (.mwImm .A 5) ∧ decode .strict 0x2540 = .ok (.mwReg .HL .C) ∧
    decode .strict 0x38FE = .ok (.mwl 0xFE) ∧ decode .strict 0x48C0 = .ok (.mwh 0xC0) ∧
    decode .strict 0x50A0 = .ok (.lwReg .A .HL) ∧ decode .strict 0x6920 = .ok (.swImm 0x20 .B) ∧
    decode .strict 0x61A0 = .ok (.swReg .HL .B) ∧ decode .strict 0xA260 = .ok (.addcReg .C .D) ∧
    decode .strict 0xC0A0 = .ok (.jmpzReg .HL) ∧ decode .strict 0xD840 = .ok (.jmpnImm 0x40) ∧
    decode .strict 0xE040 = .ok (.pushReg .C) ∧ decode .strict 0xF400 = .ok (.pop .E) ∧
    decode .strict 0x2005 = .error .lowBitsSet ∧ decode .strict 0xF805 = .error .registerFormOnly

/-- Checking a written instruction gives the machine's instruction exactly when it is the written form of one
(30_encoding.md R104, R117, R124). -/
def Obligations.CheckedSourceIsTheInstruction : Prop :=
  (∀ i : Instr, Assembler.checkInstr i.source = .ok i) ∧
    ∀ (x : AsmInstr) (i : Instr), Assembler.checkInstr x = .ok i → i.source = x

/-! ### The step -/

/-- A step of a live state serves the devices and then runs the instruction the fetched word decodes to; with no device
it runs it at the state itself. Around `exec` stands the device phase before it and the cycle count after it. -/
def Obligations.StepRunsTheDecodedInstruction : Prop :=
  (∀ (s : State) (i : Instr), s.Live → (devicePhase s).status = .running →
      decode (devicePhase s).params.decodePolicy ((devicePhase s).memRead (devicePhase s).pc) = .ok i →
      step s = mapNext State.countCycle (exec i (devicePhase s))) ∧
    ∀ (s : State) (i : Instr), s.Live → s.devices = [] →
      decode s.params.decodePolicy (s.memRead s.pc) = .ok i → step s = mapNext State.countCycle (exec i s)

/-- A word that does not decode takes the fault: status `faulted`, `pc` and everything else as the device phase left it,
the dump with the ten registers and the word as the output, the cycle counted. Rests on D1 and D16. -/
def Obligations.UndecodableWordTakesTheFault : Prop :=
  ∀ (s : State) (e : Malformed), s.Live → (devicePhase s).status = .running →
    decode (devicePhase s).params.decodePolicy ((devicePhase s).memRead (devicePhase s).pc) = .error e →
    let u := devicePhase s
    ∃ t, step s = .next t ∧ t.status = .faulted ∧ KeepsCpuAndMemory u t ∧
      t.events = u.events ++ [.dump (.invalidInstruction (u.memRead u.pc) u.pc) ⟨u.regs, u.pc, u.sp, u.memRead u.pc⟩] ∧
      t.devices = u.devices ∧ t.phase = u.phase ∧ t.params = u.params ∧ t.cycles = s.cycles + 1

/-- A `Step()` asked of a halted or faulted CPU does nothing (decision D21). -/
def Obligations.StoppedCpuStepDoesNothing : Prop := ∀ s : State, s.status ≠ .running → cpuStep s = .next s

/-- Every step answers a next state: no fault and no refusal ends a run of the model, since the one fault of the machine
is a status. -/
def Obligations.EveryStepAnswersNext : Prop := ∀ s : State, ∃ t, step s = .next t

/-- 40_execution_cycle.md R160, with ROM writable (the default): a step of a running CPU raises nothing but
`InvalidInstruction`, and that only at decode; no executed instruction faults. -/
def Obligations.OnlyDecodingFaults : Prop :=
  (∀ (i : Instr) (s : State), s.params.romWritable = true → s.status = .running →
      Completes i s fun t => t.status ≠ .faulted) ∧
    ∀ s t : State, s.params.romWritable = true → s.status = .running → cpuStep s = .next t → t.status = .faulted →
      (∃ e, decode s.params.decodePolicy (fetch s) = .error e) ∧
        t = takeFault (.invalidInstruction (fetch s) s.pc) s

/-! ### Reset and invariants -/

/-- The state after reset (10_state.md R37): `PC` 0 and `SP` 0xFDFD are the source's; the zeros of the eight registers and
of memory are the spec's decisions D11 and D12 (log entries 3 and 2); that no device is registered, and so no flag set,
is the model's choice (log entry 10). -/
def Obligations.ResetState : Prop :=
  State.reset.pc = 0x0000 ∧ State.reset.sp = 0xFDFD ∧ State.reset.status = .running ∧ State.reset.cycles = 0 ∧
    State.reset.phase = .looping ∧ (∀ r, State.reset.reg r = 0) ∧ (∀ a, State.reset.memRead a = 0) ∧
    State.reset.devices = []

/-- The state after reset satisfies the invariants that every step keeps. -/
def Obligations.ResetSatisfiesInvariants : Prop := State.reset.Inv ∧ State.reset.OutputsInOrder

/-- Every step keeps the invariant, from every state that has it. The flags are clear after a cycle because the engine clears
them whatever `trySend()` answers (R247, R249: the spec's decision D17, log entry 12); the bound on the cycles is
decision D20; the canonical form of memory is the model's (log entry 1). -/
def Obligations.StepKeepsInvariant : Prop := ∀ s t : State, s.Inv → step s = .next t → t.Inv

/-- Every step keeps the order of the outputs: one dump exactly when faulted, `shutdown` on every device exactly once, in
registration order and after everything else. Rests on D16 and D29; that a store or a port write to a ROM that is not
writable puts out a dump too is the model's choice (log entries 17 and 26). -/
def Obligations.StepKeepsOutputsInOrder : Prop :=
  ∀ s t : State, s.OutputsInOrder → step s = .next t → t.OutputsInOrder

/-- The reset sequence with any parameters, devices and image that fits gives a state with the invariants, `pc` at 0
whatever the load address, `SP` at 0xFDFD, running, every pending flag clear. Rests on D11, D15 and D22. -/
def Obligations.BootEstablishesInvariants : Prop :=
  ∀ (p : Params) (ds : List Device) (image : List Word) (addr : Nat) (s : State), boot p ds image addr = .ok s →
    s.Inv ∧ s.OutputsInOrder ∧ s.pc = 0 ∧ s.sp = 0xFDFD ∧ s.status = .running ∧ s.cycles = 0 ∧ s.params = p ∧
      (∀ r, s.reg r = 0) ∧ s.devices.map Device.port = ds.map Device.port ∧ ∀ d ∈ s.devices, d.pending = false

/-- Every run ends: from a state in the loop, within one step more than the cycles left, the loop has been left with at
most `CYCLE_CAP` cycles counted. Rests on D20; that the exit of the loop is a step of its own, the one step more, is the
model's choice (log entry 19). -/
def Obligations.EveryRunEnds : Prop :=
  ∀ s : State, s.phase = .looping → s.cycles ≤ s.params.cycleCap →
    ∃ t, core.run (s.params.cycleCap - s.cycles + 1) s = .next t ∧ t.phase = .ended ∧ t.cycles ≤ s.params.cycleCap

/-- `Halted` and `Faulted` are terminal: however many steps follow, registers, `pc`, `sp`, memory and the status stay. -/
def Obligations.StoppedRunIsFrozen : Prop :=
  ∀ (n : Nat) (s : State), s.status ≠ .running →
    ∃ t, core.run n s = .next t ∧ KeepsCpuAndMemory s t ∧ t.status = s.status ∧ t.cycles = s.cycles

/-- A step never changes the parameters, nor the number, order and ports of the devices; it counts one cycle exactly when
the guard of the run loop held. -/
def Obligations.StepKeepsTheConfiguration : Prop :=
  ∀ s t : State, step s = .next t →
    t.params = s.params ∧ t.devices.map Device.port = s.devices.map Device.port ∧
      t.cycles = s.cycles + (if s.Live then 1 else 0)

/-- The exit of the run loop: when the loop cannot go on, the next step calls `shutdown` on every device once, in
registration order, and changes nothing else; the step after it changes nothing. Rests on D20 and D29; that the exit is
a step of its own and that the step after it does nothing is the model's choice (log entry 19). -/
def Obligations.RunExitShutsDownOnce : Prop :=
  ∀ s : State, s.phase = .looping → (s.status ≠ .running ∨ s.params.cycleCap ≤ s.cycles) →
    ∃ t, step s = .next t ∧ t.phase = .ended ∧ t.events = s.events ++ shutdownCalls s ∧ KeepsCpuAndMemory s t ∧
      t.status = s.status ∧ t.devices = s.devices ∧ t.cycles = s.cycles ∧ t.params = s.params ∧ step t = .next t

/-! ### Instructions: result, frame and completion -/

/-- `NOP`: only `pc` advances, modulo 65536; every other word of opcode 0 raises the fault. -/
def Obligations.NopOnlyAdvances : Prop :=
  EncodedAs .nop 0x0000 ∧ (∀ w : Word, w.extractLsb' 12 4 = 0 → w ≠ 0 → RaisesInvalidInstruction w) ∧
    ∀ s : State, Completes .nop s fun t =>
      t.pc = s.pc + 1 ∧ KeepsRegsBut [] s t ∧ t.sp = s.sp ∧ t.status = s.status ∧ KeepsMemory s t ∧ KeepsEngine s t

/-- `HALT`: the status becomes `halted`; `pc` and everything else stay; every other word of opcode 1 raises the fault. -/
def Obligations.HaltStopsInPlace : Prop :=
  EncodedAs .halt 0x1000 ∧ (∀ w : Word, w.extractLsb' 12 4 = 1 → w ≠ 0x1000 → RaisesInvalidInstruction w) ∧
    ∀ s : State, Completes .halt s fun t =>
      t.status = .halted ∧ t.pc = s.pc ∧ KeepsRegsBut [] s t ∧ t.sp = s.sp ∧ KeepsMemory s t ∧ KeepsEngine s t

/-- 42_move.md R180, `MW`: the encoding, the move of a register or of a zero-extended immediate, all 16 bits of the
destination replaced, nothing else changed but `pc`; its corner cases and its two examples. -/
def Obligations.MoveWord : Prop :=
  (∀ d r : Reg, EncodedAs (.mwReg d r) (0x2000 + d.index.toNat * 256 + r.index.toNat * 32)) ∧
    (∀ (d : Reg) (i : Byte), EncodedAs (.mwImm d i) (0x2800 + d.index.toNat * 256 + i.toNat)) ∧
    (∀ (s : State) (d : Reg), ForBothForms s (.mwReg d) (.mwImm d) fun i v => Completes i s fun t =>
      t.reg d = v ∧ KeepsRegsBut [d] s t ∧ t.pc = s.pc + 1 ∧ t.sp = s.sp ∧ t.status = s.status ∧ KeepsMemory s t ∧
        KeepsEngine s t) ∧
    (∀ (s : State) (d : Reg) (i : Byte), Completes (.mwImm d i) s fun t => (t.reg d).toNat = i.toNat) ∧
    (∀ (s : State) (d : Reg), Completes (.mwReg d d) s fun t => KeepsRegsBut [] s t) ∧
    (∀ s : State, Completes (.mwImm .FLAG 1) s fun t =>
      t.flagZ = true ∧ t.flagN = false ∧ t.flagC = false ∧ t.reg .FLAG = 1) ∧
    (∀ (s : State) (d : Reg), Completes (.mwReg d .FLAG) s fun t => t.reg d = s.reg .FLAG) ∧
    (∀ s : State, decode .strict 0x2805 = .ok (.mwImm .A 5) ∧ Completes (.mwImm .A 5) s fun t => t.reg .A = 5) ∧
    (∀ s : State, decode .strict 0x2540 = .ok (.mwReg .HL .C) ∧
      Completes (.mwReg .HL .C) s fun t => t.reg .HL = s.reg .C)

/-- 42_move.md R181, `MWL`: the encoding, the low byte of `HL` replaced and the high byte kept, nothing else changed but
`pc`; `mode = 0` or `reg1 != 0` raises the fault; its corner case and its example. -/
def Obligations.MoveLowByte : Prop :=
  (∀ i : Byte, EncodedAs (.mwl i) (0x3800 + i.toNat)) ∧
    (∀ w : Word, (decodeFields w).op = 3 → ((decodeFields w).mode = false ∨ (decodeFields w).reg1 ≠ 0) →
      RaisesInvalidInstruction w) ∧
    (∀ (i : Byte) (s : State), Completes (.mwl i) s fun t =>
      (t.reg .HL).extractLsb' 0 8 = i ∧ (t.reg .HL).extractLsb' 8 8 = (s.reg .HL).extractLsb' 8 8 ∧
        KeepsRegsBut [.HL] s t ∧ t.pc = s.pc + 1 ∧ t.sp = s.sp ∧ t.status = s.status ∧ KeepsMemory s t ∧
        KeepsEngine s t) ∧
    (∀ (i : Byte) (s : State), (s.reg .HL).extractLsb' 0 8 = i →
      Completes (.mwl i) s fun t => t.reg .HL = s.reg .HL) ∧
    (∀ s : State, s.reg .HL = 0xC0AB → decode .strict 0x3810 = .ok (.mwl 0x10) ∧
      Completes (.mwl 0x10) s fun t => t.reg .HL = 0xC010)

/-- `MWH`: the encoding, the high byte of `HL` replaced and the low byte kept, nothing else changed but `pc`; `mode = 0` or
`reg1 != 0` raises the fault. -/
def Obligations.MoveHighByte : Prop :=
  (∀ i : Byte, EncodedAs (.mwh i) (0x4800 + i.toNat)) ∧
    (∀ w : Word, (decodeFields w).op = 4 → ((decodeFields w).mode = false ∨ (decodeFields w).reg1 ≠ 0) →
      RaisesInvalidInstruction w) ∧
    (∀ (i : Byte) (s : State), Completes (.mwh i) s fun t =>
      (t.reg .HL).extractLsb' 8 8 = i ∧ (t.reg .HL).extractLsb' 0 8 = (s.reg .HL).extractLsb' 0 8 ∧
        KeepsRegsBut [.HL] s t ∧ t.pc = s.pc + 1 ∧ t.sp = s.sp ∧ t.status = s.status ∧ KeepsMemory s t ∧
        KeepsEngine s t)

/-- The pair `MWH hi`, `MWL lo`, in either order, and the two words of `@label`, load `HL` with the whole 16-bit value and
change nothing else but `pc`. -/
def Obligations.TwoHalvesLoadHL : Prop :=
  (∀ (hi lo : Byte) (s : State), LoadHL (.mwh hi) (.mwl lo) (hi ++ lo) s ∧ LoadHL (.mwl lo) (.mwh hi) (hi ++ lo) s) ∧
    ∀ (addr : Word) (s : State), ∃ w v i j, Assembler.labelWords addr = [w, v] ∧ decode .strict w = .ok i ∧
      decode .strict v = .ok j ∧ LoadHL i j addr s

/-- 43_load_store.md R190, `LW`: the encoding; the word at the operand's address, any address, goes to the destination;
memory and everything else but `pc` stay; its corner cases and its two examples. -/
def Obligations.LoadWord : Prop :=
  (∀ d a : Reg, EncodedAs (.lwReg d a) (0x5000 + d.index.toNat * 256 + a.index.toNat * 32)) ∧
    (∀ (d : Reg) (i : Byte), EncodedAs (.lwImm d i) (0x5800 + d.index.toNat * 256 + i.toNat)) ∧
    (∀ (s : State) (d : Reg), ForBothForms s (.lwReg d) (.lwImm d) fun i ea => Completes i s fun t =>
      t.reg d = s.memRead ea ∧ KeepsRegsBut [d] s t ∧ t.pc = s.pc + 1 ∧ t.sp = s.sp ∧ t.status = s.status ∧
        KeepsMemory s t ∧ KeepsEngine s t) ∧
    (∀ i : Byte, (zext16 i).toNat < 256) ∧
    (decode .strict 0x51A0 = .ok (.lwReg .B .HL) ∧ decode .strict 0x5810 = .ok (.lwImm .A 0x10)) ∧
    (∀ s : State, s.memRead 0xC000 = 0x1234 → s.reg .HL = 0xC000 →
      Completes (.lwReg .B .HL) s fun t => t.reg .B = 0x1234)

/-- 43_load_store.md R191, `SW`: the encoding with the address in `reg2`/`imm8` and the source in `reg1`; the source
register's value is stored at the operand's address and nothing else changes but `pc`; a store to `pc + 1` is what the
next fetch reads; its examples. The address is one that stores: any address with ROM writable, the default. -/
def Obligations.StoreWord : Prop :=
  (∀ a r : Reg, EncodedAs (.swReg a r) (0x6000 + r.index.toNat * 256 + a.index.toNat * 32)) ∧
    (∀ (i : Byte) (r : Reg), EncodedAs (.swImm i r) (0x6800 + r.index.toNat * 256 + i.toNat)) ∧
    (∀ (s : State) (src : Reg), s.mem.wf = true →
      ForBothForms s (fun a => .swReg a src) (fun i => .swImm i src) fun i ea => s.Storable ea →
        Completes i s fun t =>
          t.memRead ea = s.reg src ∧ KeepsMemoryBut ea s t ∧ KeepsRegsBut [] s t ∧ t.pc = s.pc + 1 ∧ t.sp = s.sp ∧
            t.status = s.status ∧ KeepsEngine s t ∧ (ea = s.pc + 1 → fetch t = s.reg src)) ∧
    (∀ i : Byte, (zext16 i).toNat < 256) ∧
    (decode .strict 0x60A0 = .ok (.swReg .HL .A) ∧ decode .strict 0x6920 = .ok (.swImm 0x20 .B)) ∧
    (∀ s : State, s.mem.wf = true → s.params.romWritable = true → s.reg .A = 0x000C → s.reg .HL = 0xC000 →
      Completes (.swReg .HL .A) s fun t => t.memRead 0xC000 = 0x000C)

/-- A word stored is the word loaded, by any address register and through any destination, and every other address loads
what it did before. -/
def Obligations.StoreThenLoad : Prop :=
  ∀ (s : State) (a src d b : Reg), s.mem.wf = true → s.Storable (s.reg a) →
    ∃ t u, exec (.swReg a src) s = .next t ∧ exec (.lwReg d b) t = .next u ∧
      u.reg d = if s.reg b = s.reg a then s.reg src else s.memRead (s.reg b)

/-- A store is seen by the very next fetch: the instruction stored at `pc + 1` is the one the next step of the CPU
executes. Rests on 20_memory.md R77, which the spec derives. -/
def Obligations.StoredInstructionRunsNext : Prop :=
  ∀ (s : State) (a src : Reg) (i : Instr), s.mem.wf = true → s.Storable (s.reg a) → s.status = .running →
    s.reg a = s.pc + 1 → s.reg src = encode i →
    ∃ t, cpuStep (s.poke s.pc (encode (.swReg a src))) = .next t ∧ t.pc = s.pc + 1 ∧ cpuStep t = exec i t

/-- With ROM not writable, `SW` and `PUSH` to a ROM address take the fault: nothing is stored, `pc`, `sp` and every
register stay, the dump is put out. Rests on D13; the dump is log entry 17. -/
def Obligations.ReadOnlyRomFaults : Prop :=
  ∀ s : State, s.params.romWritable = false →
    let faults := fun (i : Instr) (a : Word) => Completes i s fun t =>
      t.status = .faulted ∧ KeepsCpuAndMemory s t ∧
        t.events = s.events ++ [.dump (.romWrite a s.pc) ⟨s.regs, s.pc, s.sp, s.memRead s.pc⟩]
    (∀ src, ForBothForms s (fun a => .swReg a src) (fun i => .swImm i src) fun i ea =>
        ea.toNat ≤ 0x7FFF → faults i ea) ∧
      ((s.sp - 1).toNat ≤ 0x7FFF → ForBothForms s .pushReg .pushImm fun i _ => faults i (s.sp - 1))

/-- The encodings of the five ALU mnemonics (44_alu.md R201 to R205), both forms, at every operand. -/
def Obligations.AluEncodings : Prop :=
  ∀ (d r : Reg) (i : Byte),
    let reg := d.index.toNat * 256 + r.index.toNat * 32
    let imm := d.index.toNat * 256 + i.toNat
    EncodedAs (.addReg d r) (0x7000 + reg) ∧ EncodedAs (.addImm d i) (0x7800 + imm) ∧
      EncodedAs (.subReg d r) (0x8000 + reg) ∧ EncodedAs (.subImm d i) (0x8800 + imm) ∧
      EncodedAs (.andReg d r) (0x9000 + reg) ∧ EncodedAs (.andImm d i) (0x9800 + imm) ∧
      EncodedAs (.addcReg d r) (0xA000 + reg) ∧ EncodedAs (.addcImm d i) (0xA800 + imm) ∧
      EncodedAs (.notReg d r) (0xB000 + reg) ∧ EncodedAs (.notImm d i) (0xB800 + imm)

/-- `ADD`: the sum modulo 65536, Zero from the result, Carry when the exact sum exceeds 0xFFFF. The flag formulas are the
spec's decisions D4, D5 and D9, and that Negative is not written by default D7. -/
def Obligations.AddEffect : Prop :=
  ∀ (s : State) (d : Reg), ForBothForms s (.addReg d) (.addImm d) fun i y => Completes i s fun t =>
    AluEffect d (s.reg d + y) (some (decide (0xFFFF < (s.reg d).toNat + y.toNat))) s t

/-- `SUB`: the difference modulo 65536, Zero from the result, Carry as the borrow. The flag formulas are the spec's
decisions D4, D6 and D9, and that Negative is not written by default D7. -/
def Obligations.SubEffect : Prop :=
  ∀ (s : State) (d : Reg), ForBothForms s (.subReg d) (.subImm d) fun i y => Completes i s fun t =>
    AluEffect d (s.reg d - y) (some (decide ((s.reg d).toNat < y.toNat))) s t

/-- `AND`: the bitwise and, Zero from the result, Carry kept. The flag behaviour is the spec's decisions D4, D7, D8, D9. -/
def Obligations.AndEffect : Prop :=
  ∀ (s : State) (d : Reg), ForBothForms s (.andReg d) (.andImm d) fun i y => Completes i s fun t =>
    AluEffect d (s.reg d &&& y) none s t

/-- `ADDC`: the sum with the old Carry modulo 65536, Zero and Carry as for `ADD`. The flag formulas are the spec's
decisions D4, D5 and D9, and that Negative is not written by default D7. -/
def Obligations.AddcEffect : Prop :=
  ∀ (s : State) (d : Reg), ForBothForms s (.addcReg d) (.addcImm d) fun i y => Completes i s fun t =>
    AluEffect d (s.reg d + y + (if s.flagC = true then 1 else 0))
      (some (decide (0xFFFF < (s.reg d).toNat + y.toNat + (if s.flagC = true then 1 else 0)))) s t

/-- `NOT`: the complement of the operand, whatever the destination held, Zero from the result, Carry kept. The flag
behaviour is the spec's decisions D4, D7, D8, D9. -/
def Obligations.NotEffect : Prop :=
  ∀ (s : State) (d : Reg), ForBothForms s (.notReg d) (.notImm d) fun i y => Completes i s fun t =>
    (65535 - y).toNat = 65535 - y.toNat ∧ AluEffect d (65535 - y) none s t

/-- The arithmetic identities of 44_alu.md R206, which the spec derives: `SUB` undoes `ADD`, `NOT` twice restores, and
`x - y = x + ~y + 1` with the Carry of the sum form the inverse of the borrow. `FLAG` is left out as an operand, since the
flag updates change its bits on top of the result. -/
def Obligations.ArithmeticIdentities : Prop :=
  (∀ (s : State) (d r : Reg), d ≠ .FLAG → r ≠ .FLAG → d ≠ r →
      ∃ t u, exec (.addReg d r) s = .next t ∧ exec (.subReg d r) t = .next u ∧ u.reg d = s.reg d) ∧
    (∀ (s : State) (d : Reg), d ≠ .FLAG →
      ∃ t u, exec (.notReg d d) s = .next t ∧ exec (.notReg d d) t = .next u ∧ u.reg d = s.reg d) ∧
    (∀ (s : State) (d r q : Reg), d ≠ .FLAG → r ≠ .FLAG → q ≠ .FLAG → d ≠ r → d ≠ q → q ≠ r →
      ∃ t u v w, exec (.subReg d r) s = .next t ∧
        exec (.mwImm .FLAG 4) s = .next u ∧ exec (.notReg q r) u = .next v ∧ exec (.addcReg d q) v = .next w ∧
        w.reg d = t.reg d ∧ w.flagC = !t.flagC)

/-- 45_jump.md R220, `JMPZ`: the encoding; `pc` becomes the operand, any 16-bit word address, exactly when Zero is set, and
advances by one otherwise; nothing else changes; `reg1 != 0` raises the fault; its two examples. -/
def Obligations.JumpIfZero : Prop :=
  (∀ r : Reg, EncodedAs (.jmpzReg r) (0xC000 + r.index.toNat * 32)) ∧
    (∀ i : Byte, EncodedAs (.jmpzImm i) (0xC800 + i.toNat)) ∧
    (∀ w : Word, (decodeFields w).op = 0xC → (decodeFields w).reg1 ≠ 0 → RaisesInvalidInstruction w) ∧
    (∀ s : State, ForBothForms s .jmpzReg .jmpzImm fun i target => Completes i s fun t =>
      t.pc = (if s.flagZ = true then target else s.pc + 1) ∧ KeepsRegsBut [] s t ∧ t.sp = s.sp ∧ t.status = s.status ∧
        KeepsMemory s t ∧ KeepsEngine s t) ∧
    (∀ i : Byte, (zext16 i).toNat < 256) ∧
    (decode .strict 0xC807 = .ok (.jmpzImm 7) ∧ decode .strict 0xC0A0 = .ok (.jmpzReg .HL)) ∧
    (∀ s : State, s.pc = 4 → Completes (.jmpzImm 7) s fun t => t.pc = if s.flagZ = true then 7 else 5) ∧
    (∀ s : State, s.reg .HL = 0x0200 → s.flagZ = true → Completes (.jmpzReg .HL) s fun t => t.pc = 0x0200)

/-- `JMPN`: `pc` becomes the operand exactly when bit 1 of `FLAG` is set; otherwise as `JMPZ`. -/
def Obligations.JumpIfNegative : Prop :=
  (∀ r : Reg, EncodedAs (.jmpnReg r) (0xD000 + r.index.toNat * 32)) ∧
    (∀ i : Byte, EncodedAs (.jmpnImm i) (0xD800 + i.toNat)) ∧
    (∀ w : Word, (decodeFields w).op = 0xD → (decodeFields w).reg1 ≠ 0 → RaisesInvalidInstruction w) ∧
    (∀ s : State, ForBothForms s .jmpnReg .jmpnImm fun i target => Completes i s fun t =>
      t.pc = (if (s.reg .FLAG).getLsbD 1 = true then target else s.pc + 1) ∧ KeepsRegsBut [] s t ∧ t.sp = s.sp ∧
        t.status = s.status ∧ KeepsMemory s t ∧ KeepsEngine s t)

/-- `PUSH`: the operand is stored at the decremented `sp`, which is the new `sp`; nothing else changes but `pc`. The wrap
of `sp` is the spec's decision D10. -/
def Obligations.PushEffect : Prop :=
  (∀ r : Reg, EncodedAs (.pushReg r) (0xE000 + r.index.toNat * 32)) ∧
    (∀ i : Byte, EncodedAs (.pushImm i) (0xE800 + i.toNat)) ∧
    (∀ w : Word, (decodeFields w).op = 0xE → (decodeFields w).reg1 ≠ 0 → RaisesInvalidInstruction w) ∧
    ∀ s : State, s.mem.wf = true → s.Storable (s.sp - 1) → ForBothForms s .pushReg .pushImm fun i v =>
      Completes i s fun t =>
        t.sp = s.sp - 1 ∧ t.memRead (s.sp - 1) = v ∧ KeepsMemoryBut (s.sp - 1) s t ∧ KeepsRegsBut [] s t ∧
          t.pc = s.pc + 1 ∧ t.status = s.status ∧ KeepsEngine s t

/-- `POP`: the word at `sp` goes to the destination, then `sp` increases; memory and everything else but `pc` stay;
`mode = 1` or a low byte that is not zero raises the fault. The wrap of `sp` is the spec's decision D10. -/
def Obligations.PopEffect : Prop :=
  (∀ d : Reg, EncodedAs (.pop d) (0xF000 + d.index.toNat * 256)) ∧
    (∀ w : Word, (decodeFields w).op = 0xF → ((decodeFields w).mode = true ∨ (decodeFields w).imm8 ≠ 0) →
      RaisesInvalidInstruction w) ∧
    ∀ (s : State) (d : Reg), Completes (.pop d) s fun t =>
      t.reg d = s.memRead s.sp ∧ t.sp = s.sp + 1 ∧ KeepsRegsBut [d] s t ∧ t.pc = s.pc + 1 ∧ t.status = s.status ∧
        KeepsMemory s t ∧ KeepsEngine s t

/-- The stack law: `PUSH x; POP r` gives `r = x` with `sp` and every other register restored, and pushes and pops nest
last in, first out. -/
def Obligations.StackLaw : Prop :=
  (∀ (s : State) (r : Reg), s.mem.wf = true → s.Storable (s.sp - 1) → ForBothForms s .pushReg .pushImm fun i v =>
      ∃ t u, exec i s = .next t ∧ exec (.pop r) t = .next u ∧ u.reg r = v ∧ u.sp = s.sp ∧ KeepsRegsBut [r] s u) ∧
    ∀ (s : State) (a b r q : Reg), s.mem.wf = true → s.Storable (s.sp - 1) → s.Storable (s.sp - 2) →
      ∃ t1 t2 t3 t4, exec (.pushReg a) s = .next t1 ∧ exec (.pushReg b) t1 = .next t2 ∧
        exec (.pop r) t2 = .next t3 ∧ exec (.pop q) t3 = .next t4 ∧
        t3.reg r = s.reg b ∧ t4.reg q = s.reg a ∧ t4.sp = s.sp

/-! ### Whole-machine rules over all instructions -/

/-- 10_state.md R31, with ROM writable (the default): only `PUSH` and `POP` change or depend on `sp`; `pc` changes by the
normal advance or a jump to the operand, `HALT` leaves it, and nothing an instruction computes depends on `pc`. -/
def Obligations.OnlyStackUsesSpAndNoDataUsesPc : Prop :=
  ∀ (i : Instr) (s t : State), s.params.romWritable = true → exec i s = .next t →
    (isStack i = false → t.sp = s.sp ∧ ∀ v, exec i (s.setSp v) = .next (t.setSp v)) ∧
      (isStack i = true → t.sp = s.sp - 1 ∨ t.sp = s.sp + 1) ∧
      (i = .halt → t.pc = s.pc) ∧ (i ≠ .halt → isJump i = false → t.pc = s.pc + 1) ∧
      (∀ r, (i = .jmpzReg r ∨ i = .jmpnReg r) → t.pc = s.reg r ∨ t.pc = s.pc + 1) ∧
      (∀ k, (i = .jmpzImm k ∨ i = .jmpnImm k) → t.pc = zext16 k ∨ t.pc = s.pc + 1) ∧
      ∀ v, ∃ u, exec i (s.setPc v) = .next u ∧ u.setPc t.pc = t

/-- Over all instructions: a register other than the destination and `FLAG` never changes; `FLAG` changes only by the five
ALU mnemonics or as the destination; an ALU instruction with another destination changes no bit of `FLAG` but Zero,
Carry and, under its parameter, Negative. Rests on D7, D8 and D9. -/
def Obligations.FlagWriters : Prop :=
  ∀ (i : Instr) (s t : State), exec i s = .next t →
    (∀ r, r ≠ .FLAG → destOf i ≠ some r → t.reg r = s.reg r) ∧
      (isAlu i = false → destOf i ≠ some .FLAG → t.reg .FLAG = s.reg .FLAG) ∧
      (destOf i ≠ some .FLAG → ∀ n, n < 16 → n ≠ 0 → n ≠ 2 → (n = 1 → s.params.aluWritesNegative = false) →
        (t.reg .FLAG).getLsbD n = (s.reg .FLAG).getLsbD n)

/-- Over all instructions: the engine's state and the parameters are no instruction's to change, outputs are put out only
by a fault, and only `SW` and `PUSH` change memory. -/
def Obligations.InstructionsLeaveTheEngine : Prop :=
  ∀ (i : Instr) (s t : State), exec i s = .next t →
    t.devices = s.devices ∧ t.cycles = s.cycles ∧ t.phase = s.phase ∧ t.params = s.params ∧
      (t.events = s.events ∨ t.status = .faulted) ∧
      (t.mem = s.mem ∨ (∃ a r, i = .swReg a r) ∨ (∃ k r, i = .swImm k r) ∨ (∃ r, i = .pushReg r) ∨ ∃ k, i = .pushImm k)

/-! ### Memory -/

/-- Two canonical memories that read alike at every address are the same data, and every bus operation keeps the form. -/
def Obligations.CanonicalMemoryIsExtensional : Prop :=
  (∀ m n : Memory, m.wf = true → n.wf = true → (∀ a, m.read a = n.read a) → m = n) ∧
    ∀ (m : Memory) (a v : Word), m.wf = true →
      (m.write a v).wf = true ∧ m.write a (m.read a) = m ∧
        ∀ u, (m.write a u).write a v = m.write a v

/-- The region map of 20_memory.md R63, by its bounds; the five rows cover every address. -/
def Obligations.RegionMap : Prop :=
  ∀ a : Word,
    (regionOf a = .rom ↔ a.toNat ≤ 0x7FFF) ∧
      (regionOf a = .vram ↔ 0x8000 ≤ a.toNat ∧ a.toNat ≤ 0xBFFF) ∧
      (regionOf a = .ram ↔ 0xC000 ≤ a.toNat ∧ a.toNat ≤ 0xFDFD) ∧
      (regionOf a = .keyboardPort ↔ a.toNat = 0xFDFE) ∧ (regionOf a = .unnamed ↔ 0xFDFF ≤ a.toNat)

/-- Loading an image: word `k` stands at `LOAD_ADDR + k`, every other word and all else stays; an address beyond ROM or an
image that leaves ROM is refused. Rests on D15. -/
def Obligations.ImageLoad : Prop :=
  (∀ (image : List Word) (addr : Nat) (s : State), s.mem.wf = true → addr ≤ 0x7FFF → addr + image.length ≤ 0x8000 →
      ∃ t, loadImage image addr s = .ok t ∧
        (∀ k, (h : k < image.length) → t.memRead (BitVec.ofNat 16 (addr + k)) = image[k]) ∧
        (∀ a : Word, (a.toNat < addr ∨ addr + image.length ≤ a.toNat) → t.memRead a = s.memRead a) ∧
        KeepsRegsBut [] s t ∧ t.pc = s.pc ∧ t.sp = s.sp ∧ t.status = s.status ∧ KeepsEngine s t) ∧
    (∀ (image : List Word) (addr : Nat) (s : State), 0x7FFF < addr →
      loadImage image addr s = .error .loadAddrBeyondRom) ∧
    ∀ (image : List Word) (addr : Nat) (s : State), addr ≤ 0x7FFF → 0x8000 < addr + image.length →
      loadImage image addr s = .error .imageLeavesRom

/-- The image file: the bytes of a list of words read back as the words, low byte first; an odd number of bytes and more
than 65536 bytes are refused. That "little-endian" means low byte first is general knowledge (log entry 30). -/
def Obligations.ImageFileRoundTrip : Prop :=
  (∀ ws : List Word, ws.length ≤ 32768 → imageOfFile (ws.flatMap bytesOfWord) = .ok ws) ∧
    (∀ (bytes : List Byte) (ws : List Word), imageOfFile bytes = .ok ws → ws.flatMap bytesOfWord = bytes) ∧
    (∀ bytes : List Byte, bytes.length ≤ 65536 → bytes.length % 2 = 1 → imageOfFile bytes = .error .oddByteCount) ∧
    ∀ bytes : List Byte, 65536 < bytes.length → imageOfFile bytes = .error .fileTooLong

/-! ### Devices -/

/-- The delivery of 60_exceptions.md R247, R248 and R250 for a device whose flag is set and whose `trySend()` answers a
byte, in order: the byte is offered, written to the port word, acknowledged with the same byte, and the flag is cleared;
the port holds the byte zero-extended (decision D18); no register changes and the CPU takes no part. A port in a ROM that
is not writable is ReadOnlyRomPortWriteFaults. -/
def Obligations.DeliverySequence : Prop :=
  ∀ (n : Nat) (d : Device) (p : Word) (b : Byte) (s : State), s.mem.wf = true → s.Storable p → d.port = some p →
    d.ticked.pending = true → d.nextPoll.answer = some b →
    let r := serviceDevice n d s
    r.2.events = s.events ++
        [.tick n, .trySend n (some b), .portWrite n p (b.setWidth 16), .receive n b, .pendingCleared n] ∧
      r.1.pending = false ∧ r.2.memRead p = b.setWidth 16 ∧ KeepsMemoryBut p s r.2 ∧ r.2.regs = s.regs ∧
      r.2.pc = s.pc ∧ r.2.sp = s.sp ∧ r.2.status = s.status ∧ r.2.cycles = s.cycles ∧ r.2.phase = s.phase ∧
      r.2.params = s.params

/-- With ROM not writable, a device's port write to a ROM address faults: nothing is stored, the flag stays set, the devices
after it are not ticked, the CPU executes nothing in that cycle, and the cycle is counted. `u` is the state after the
devices before it. That it faults is 20_memory.md R65 (decision D13); the rest is the model's choice (log entries 17
and 26). -/
def Obligations.ReadOnlyRomPortWriteFaults : Prop :=
  ∀ (s : State) (before after : List Device) (d : Device) (p : Word) (b : Byte), s.Live →
    s.params.romWritable = false → s.devices = before ++ d :: after →
    (serviceFrom 0 before s).2.status = .running → d.port = some p → p.toNat ≤ 0x7FFF → d.ticked.pending = true →
    d.nextPoll.answer = some b →
    let u := (serviceFrom 0 before s).2
    let n := before.length
    ∃ t, step s = .next t ∧ t.status = .faulted ∧ KeepsCpuAndMemory u t ∧
      t.devices = (serviceFrom 0 before s).1 ++ d.ticked :: after ∧
      t.events = u.events ++
        [.tick n, .trySend n (some b), .dump (.romWrite p u.pc) ⟨u.regs, u.pc, u.sp, u.memRead u.pc⟩] ∧
      t.phase = s.phase ∧ t.params = s.params ∧ t.cycles = s.cycles + 1

/-- A device that raises no flag is only ticked; one that answers nothing has its flag cleared with no port write and no
acknowledgement (decision D17); a device without a port never raises (decision D22). -/
def Obligations.NoDeliveryWithoutAByte : Prop :=
  (∀ (n : Nat) (d : Device) (s : State), d.ticked.pending = false →
      serviceDevice n d s = (d.ticked, s.emit (.tick n))) ∧
    (∀ (n : Nat) (d : Device) (s : State), d.ticked.pending = true → d.nextPoll.answer = none →
      let r := serviceDevice n d s
      r.1.pending = false ∧ r.2.events = s.events ++ [.tick n, .trySend n none, .pendingCleared n] ∧
        r.2.mem = s.mem ∧ r.2.regs = s.regs ∧ r.2.pc = s.pc ∧ r.2.sp = s.sp ∧ r.2.status = s.status) ∧
    ∀ d : Device, d.port = none → d.pending = false → d.ticked.pending = false

/-- The device phase of a running machine, ROM writable: memory is changed by exactly the deliveries, in registration
order (so the later of two devices with one port wins), every device is polled once and its flag cleared, the outputs
are each device's own, one device after the other, so that each is fully serviced before the next is ticked, and no
register, `pc`, `sp` or status changes. Rests on D17, D18, D19 and D22. -/
def Obligations.DevicePhaseDelivers : Prop :=
  ∀ s : State, s.status = .running → s.params.romWritable = true →
    let t := devicePhase s
    t.mem = (s.devices.filterMap Device.delivery).foldl (fun m w => m.write w.1 (zext16 w.2)) s.mem ∧
      t.devices = s.devices.map (fun d => d.ticked.cleared) ∧
      t.events = s.events ++ s.devices.zipIdx.flatMap (fun d => d.1.outputs d.2) ∧ t.regs = s.regs ∧ t.pc = s.pc ∧ t.sp = s.sp ∧
      t.status = .running ∧ t.cycles = s.cycles ∧ t.phase = s.phase ∧ t.params = s.params

/-- A byte delivered in a cycle is what an `LW` of the port executed in that cycle reads: the device phase comes before the
instruction. -/
def Obligations.LoadSeesTheDeliveryOfItsCycle : Prop :=
  ∀ (s : State) (dev : Device) (d a : Reg) (p : Word) (b : Byte), s.Live → s.mem.wf = true →
    s.params.romWritable = true → s.devices = [dev] → dev.delivery = some (p, b) → p ≠ s.pc → s.reg a = p →
    s.memRead s.pc = encode (.lwReg d a) →
    ∃ t, step s = .next t ∧ t.reg d = b.setWidth 16 ∧ t.pc = s.pc + 1

/-! ### Operands and the assembler -/

/-- The variable operand: all 16 bits of a register, or the immediate zero-extended, 0 to 255 (decision D3). -/
def Obligations.OperandValues : Prop :=
  ∀ s : State, (∀ r, operandValue (.reg r) s = s.reg r) ∧
    ∀ i : Byte, (operandValue (.imm i) s).toNat = i.toNat ∧ (operandValue (.imm i) s).toNat ≤ 0x00FF

/-- The assembler's image padding and `.org`: a size at or above the program's pads with zero words up to it, a smaller one
is an error; `.org` to the current position emits nothing, backward is a `DirectiveError`, forward emits that many `NOP`
words. -/
def Obligations.PaddingAndOrg : Prop :=
  (∀ (file : Assembler.Token) (k lines : Nat) (ws : List Word), ws.length ≤ 512 * k →
      ∃ out, Assembler.padImage file (some k) lines ws = .ok out ∧ out.length = 512 * k ∧ out.take ws.length = ws ∧
        ∀ w ∈ out.drop ws.length, w = 0) ∧
    (∀ (file : Assembler.Token) (k lines : Nat) (ws : List Word), 512 * k < ws.length →
      Assembler.padImage file (some k) lines ws = .error ⟨.imageTooSmall, file, lines⟩) ∧
    ∀ (sy : Assembler.Symbols) (defined : Assembler.Table) (t : Assembler.Token) (v pos : Nat),
      Assembler.orgValue defined t = .ok v →
      (v < pos → Assembler.lineTwo sy defined pos (.org t) = .error .directive) ∧
        (pos ≤ v → Assembler.lineTwo sy defined pos (.org t) = .ok (List.replicate (v - pos) 0))

/-- Both passes move alike: where pass 1 and pass 2 both accept a line, pass 2 emits exactly as many words as pass 1 moves
the position and knows the same constants after it, so the length pass 1 answers is that of the assembled words; and a
label defined by a line stands for the position pass 2 has reached there. That a position beyond memory is taken modulo
65536 in the words of `@label` is the model's choice (log entry 37). -/
def Obligations.PassesAgreeOnPositions : Prop :=
  (∀ (l : Assembler.Line) (pos next : Nat) (sy sy' full : Assembler.Symbols) (ws : List Word),
      Assembler.lineOne pos sy l = .ok (next, sy') → Assembler.lineTwo full sy.constants pos l = .ok ws →
      pos + ws.length = next ∧ Assembler.constantsAfter sy.constants l = sy'.constants) ∧
    (∀ (file : Assembler.Token) (ls : List Assembler.Line) (out : Assembler.PassOutput) (ws : List Word),
      Assembler.passOne file 1 0 ⟨[], []⟩ ls = .ok out → Assembler.assembleLines file ls = .ok ws →
      ws.length = out.length) ∧
    (∀ (file : Assembler.Token) (before after : List Assembler.Line) (name : Assembler.Token)
      (out : Assembler.PassOutput) (ws : List Word),
      Assembler.passOne file 1 0 ⟨[], []⟩ (before ++ .label name :: after) = .ok out →
      Assembler.passTwo file out.symbols 1 0 [] before = .ok ws → out.symbols.labels.get name = some ws.length) ∧
    ∀ (sy : Assembler.Symbols) (defined : Assembler.Table) (pos : Nat) (name : Assembler.Token) (addr : Nat),
      sy.labels.get name = some addr →
      Assembler.lineTwo sy defined pos (.target name) = .ok (Assembler.labelWords (BitVec.ofNat 16 addr))

/-- Constants in pass 2 (30_encoding.md R122): a token of an instruction line that is a constant's name is read as the
constant's decimal spelling, be it the mnemonic or an operand, and even a register's name; any other token is read as
it stands. That only instruction lines are replaced in is the model's choice (log entry 35). -/
def Obligations.ConstantsAreSubstituted : Prop :=
  ∀ (cs : Assembler.Table) (name : Assembler.Token) (v : Nat), v < 256 → cs.get name = some v →
    (∀ only, Assembler.parseOperand cs only name = .ok (.lit v)) ∧
      (∀ rest, Assembler.parseInstr cs name rest = .error .unknownInstruction) ∧
      ∀ other, cs.get other = none → Assembler.substitute cs other = other
end

