-- ==== Sys2Proof/Laws/State.lean ====
section
/-! SUPPORT. One lemma per field per update of a state, and per derived read; all by definition. -/

namespace Sys2Proof.Machine

variable (s : State)

@[simp] theorem State.setReg_regs (r : Reg) (v : Word) : (s.setReg r v).regs = s.regs.set r v := rfl
@[simp] theorem State.setReg_pc (r : Reg) (v : Word) : (s.setReg r v).pc = s.pc := rfl
@[simp] theorem State.setReg_sp (r : Reg) (v : Word) : (s.setReg r v).sp = s.sp := rfl
@[simp] theorem State.setReg_status (r : Reg) (v : Word) : (s.setReg r v).status = s.status := rfl
@[simp] theorem State.setReg_mem (r : Reg) (v : Word) : (s.setReg r v).mem = s.mem := rfl
@[simp] theorem State.setReg_devices (r : Reg) (v : Word) : (s.setReg r v).devices = s.devices := rfl
@[simp] theorem State.setReg_cycles (r : Reg) (v : Word) : (s.setReg r v).cycles = s.cycles := rfl
@[simp] theorem State.setReg_phase (r : Reg) (v : Word) : (s.setReg r v).phase = s.phase := rfl
@[simp] theorem State.setReg_events (r : Reg) (v : Word) : (s.setReg r v).events = s.events := rfl
@[simp] theorem State.setReg_params (r : Reg) (v : Word) : (s.setReg r v).params = s.params := rfl
@[simp] theorem State.setReg_memRead (r : Reg) (v : Word) (c : Word) : (s.setReg r v).memRead c = s.memRead c := rfl

@[simp] theorem State.setPc_regs (v : Word) : (s.setPc v).regs = s.regs := rfl
@[simp] theorem State.setPc_pc (v : Word) : (s.setPc v).pc = v := rfl
@[simp] theorem State.setPc_sp (v : Word) : (s.setPc v).sp = s.sp := rfl
@[simp] theorem State.setPc_status (v : Word) : (s.setPc v).status = s.status := rfl
@[simp] theorem State.setPc_mem (v : Word) : (s.setPc v).mem = s.mem := rfl
@[simp] theorem State.setPc_devices (v : Word) : (s.setPc v).devices = s.devices := rfl
@[simp] theorem State.setPc_cycles (v : Word) : (s.setPc v).cycles = s.cycles := rfl
@[simp] theorem State.setPc_phase (v : Word) : (s.setPc v).phase = s.phase := rfl
@[simp] theorem State.setPc_events (v : Word) : (s.setPc v).events = s.events := rfl
@[simp] theorem State.setPc_params (v : Word) : (s.setPc v).params = s.params := rfl
@[simp] theorem State.setPc_reg (v : Word) (q : Reg) : (s.setPc v).reg q = s.reg q := rfl
@[simp] theorem State.setPc_memRead (v : Word) (c : Word) : (s.setPc v).memRead c = s.memRead c := rfl

@[simp] theorem State.setSp_regs (v : Word) : (s.setSp v).regs = s.regs := rfl
@[simp] theorem State.setSp_pc (v : Word) : (s.setSp v).pc = s.pc := rfl
@[simp] theorem State.setSp_sp (v : Word) : (s.setSp v).sp = v := rfl
@[simp] theorem State.setSp_status (v : Word) : (s.setSp v).status = s.status := rfl
@[simp] theorem State.setSp_mem (v : Word) : (s.setSp v).mem = s.mem := rfl
@[simp] theorem State.setSp_devices (v : Word) : (s.setSp v).devices = s.devices := rfl
@[simp] theorem State.setSp_cycles (v : Word) : (s.setSp v).cycles = s.cycles := rfl
@[simp] theorem State.setSp_phase (v : Word) : (s.setSp v).phase = s.phase := rfl
@[simp] theorem State.setSp_events (v : Word) : (s.setSp v).events = s.events := rfl
@[simp] theorem State.setSp_params (v : Word) : (s.setSp v).params = s.params := rfl
@[simp] theorem State.setSp_reg (v : Word) (q : Reg) : (s.setSp v).reg q = s.reg q := rfl
@[simp] theorem State.setSp_memRead (v : Word) (c : Word) : (s.setSp v).memRead c = s.memRead c := rfl

@[simp] theorem State.setStatus_regs (x : Status) : (s.setStatus x).regs = s.regs := rfl
@[simp] theorem State.setStatus_pc (x : Status) : (s.setStatus x).pc = s.pc := rfl
@[simp] theorem State.setStatus_sp (x : Status) : (s.setStatus x).sp = s.sp := rfl
@[simp] theorem State.setStatus_status (x : Status) : (s.setStatus x).status = x := rfl
@[simp] theorem State.setStatus_mem (x : Status) : (s.setStatus x).mem = s.mem := rfl
@[simp] theorem State.setStatus_devices (x : Status) : (s.setStatus x).devices = s.devices := rfl
@[simp] theorem State.setStatus_cycles (x : Status) : (s.setStatus x).cycles = s.cycles := rfl
@[simp] theorem State.setStatus_phase (x : Status) : (s.setStatus x).phase = s.phase := rfl
@[simp] theorem State.setStatus_events (x : Status) : (s.setStatus x).events = s.events := rfl
@[simp] theorem State.setStatus_params (x : Status) : (s.setStatus x).params = s.params := rfl
@[simp] theorem State.setStatus_reg (x : Status) (q : Reg) : (s.setStatus x).reg q = s.reg q := rfl
@[simp] theorem State.setStatus_memRead (x : Status) (c : Word) : (s.setStatus x).memRead c = s.memRead c := rfl

@[simp] theorem State.poke_regs (a v : Word) : (s.poke a v).regs = s.regs := rfl
@[simp] theorem State.poke_pc (a v : Word) : (s.poke a v).pc = s.pc := rfl
@[simp] theorem State.poke_sp (a v : Word) : (s.poke a v).sp = s.sp := rfl
@[simp] theorem State.poke_status (a v : Word) : (s.poke a v).status = s.status := rfl
@[simp] theorem State.poke_mem (a v : Word) : (s.poke a v).mem = s.mem.write a v := rfl
@[simp] theorem State.poke_devices (a v : Word) : (s.poke a v).devices = s.devices := rfl
@[simp] theorem State.poke_cycles (a v : Word) : (s.poke a v).cycles = s.cycles := rfl
@[simp] theorem State.poke_phase (a v : Word) : (s.poke a v).phase = s.phase := rfl
@[simp] theorem State.poke_events (a v : Word) : (s.poke a v).events = s.events := rfl
@[simp] theorem State.poke_params (a v : Word) : (s.poke a v).params = s.params := rfl
@[simp] theorem State.poke_reg (a v : Word) (q : Reg) : (s.poke a v).reg q = s.reg q := rfl

@[simp] theorem State.emit_regs (e : Event) : (s.emit e).regs = s.regs := rfl
@[simp] theorem State.emit_pc (e : Event) : (s.emit e).pc = s.pc := rfl
@[simp] theorem State.emit_sp (e : Event) : (s.emit e).sp = s.sp := rfl
@[simp] theorem State.emit_status (e : Event) : (s.emit e).status = s.status := rfl
@[simp] theorem State.emit_mem (e : Event) : (s.emit e).mem = s.mem := rfl
@[simp] theorem State.emit_devices (e : Event) : (s.emit e).devices = s.devices := rfl
@[simp] theorem State.emit_cycles (e : Event) : (s.emit e).cycles = s.cycles := rfl
@[simp] theorem State.emit_phase (e : Event) : (s.emit e).phase = s.phase := rfl
@[simp] theorem State.emit_events (e : Event) : (s.emit e).events = s.events ++ [e] := rfl
@[simp] theorem State.emit_params (e : Event) : (s.emit e).params = s.params := rfl
@[simp] theorem State.emit_reg (e : Event) (q : Reg) : (s.emit e).reg q = s.reg q := rfl
@[simp] theorem State.emit_memRead (e : Event) (c : Word) : (s.emit e).memRead c = s.memRead c := rfl

@[simp] theorem State.setDevices_regs (ds : List Device) : (s.setDevices ds).regs = s.regs := rfl
@[simp] theorem State.setDevices_pc (ds : List Device) : (s.setDevices ds).pc = s.pc := rfl
@[simp] theorem State.setDevices_sp (ds : List Device) : (s.setDevices ds).sp = s.sp := rfl
@[simp] theorem State.setDevices_status (ds : List Device) : (s.setDevices ds).status = s.status := rfl
@[simp] theorem State.setDevices_mem (ds : List Device) : (s.setDevices ds).mem = s.mem := rfl
@[simp] theorem State.setDevices_devices (ds : List Device) : (s.setDevices ds).devices = ds := rfl
@[simp] theorem State.setDevices_cycles (ds : List Device) : (s.setDevices ds).cycles = s.cycles := rfl
@[simp] theorem State.setDevices_phase (ds : List Device) : (s.setDevices ds).phase = s.phase := rfl
@[simp] theorem State.setDevices_events (ds : List Device) : (s.setDevices ds).events = s.events := rfl
@[simp] theorem State.setDevices_params (ds : List Device) : (s.setDevices ds).params = s.params := rfl
@[simp] theorem State.setDevices_reg (ds : List Device) (q : Reg) : (s.setDevices ds).reg q = s.reg q := rfl
@[simp] theorem State.setDevices_memRead (ds : List Device) (c : Word) : (s.setDevices ds).memRead c = s.memRead c := rfl

@[simp] theorem State.countCycle_regs : s.countCycle.regs = s.regs := rfl
@[simp] theorem State.countCycle_pc : s.countCycle.pc = s.pc := rfl
@[simp] theorem State.countCycle_sp : s.countCycle.sp = s.sp := rfl
@[simp] theorem State.countCycle_status : s.countCycle.status = s.status := rfl
@[simp] theorem State.countCycle_mem : s.countCycle.mem = s.mem := rfl
@[simp] theorem State.countCycle_devices : s.countCycle.devices = s.devices := rfl
@[simp] theorem State.countCycle_cycles : s.countCycle.cycles = s.cycles + 1 := rfl
@[simp] theorem State.countCycle_phase : s.countCycle.phase = s.phase := rfl
@[simp] theorem State.countCycle_events : s.countCycle.events = s.events := rfl
@[simp] theorem State.countCycle_params : s.countCycle.params = s.params := rfl
@[simp] theorem State.countCycle_reg (q : Reg) : s.countCycle.reg q = s.reg q := rfl
@[simp] theorem State.countCycle_memRead (c : Word) : s.countCycle.memRead c = s.memRead c := rfl

@[simp] theorem State.setPhase_regs (x : RunPhase) : (s.setPhase x).regs = s.regs := rfl
@[simp] theorem State.setPhase_pc (x : RunPhase) : (s.setPhase x).pc = s.pc := rfl
@[simp] theorem State.setPhase_sp (x : RunPhase) : (s.setPhase x).sp = s.sp := rfl
@[simp] theorem State.setPhase_status (x : RunPhase) : (s.setPhase x).status = s.status := rfl
@[simp] theorem State.setPhase_mem (x : RunPhase) : (s.setPhase x).mem = s.mem := rfl
@[simp] theorem State.setPhase_devices (x : RunPhase) : (s.setPhase x).devices = s.devices := rfl
@[simp] theorem State.setPhase_cycles (x : RunPhase) : (s.setPhase x).cycles = s.cycles := rfl
@[simp] theorem State.setPhase_phase (x : RunPhase) : (s.setPhase x).phase = x := rfl
@[simp] theorem State.setPhase_events (x : RunPhase) : (s.setPhase x).events = s.events := rfl
@[simp] theorem State.setPhase_params (x : RunPhase) : (s.setPhase x).params = s.params := rfl
@[simp] theorem State.setPhase_reg (x : RunPhase) (q : Reg) : (s.setPhase x).reg q = s.reg q := rfl
@[simp] theorem State.setPhase_memRead (x : RunPhase) (c : Word) : (s.setPhase x).memRead c = s.memRead c := rfl

@[simp] theorem State.advance_regs : s.advance.regs = s.regs := rfl
@[simp] theorem State.advance_pc : s.advance.pc = s.pc + 1 := rfl
@[simp] theorem State.advance_sp : s.advance.sp = s.sp := rfl
@[simp] theorem State.advance_status : s.advance.status = s.status := rfl
@[simp] theorem State.advance_mem : s.advance.mem = s.mem := rfl
@[simp] theorem State.advance_devices : s.advance.devices = s.devices := rfl
@[simp] theorem State.advance_cycles : s.advance.cycles = s.cycles := rfl
@[simp] theorem State.advance_phase : s.advance.phase = s.phase := rfl
@[simp] theorem State.advance_events : s.advance.events = s.events := rfl
@[simp] theorem State.advance_params : s.advance.params = s.params := rfl
@[simp] theorem State.advance_reg (q : Reg) : s.advance.reg q = s.reg q := rfl
@[simp] theorem State.advance_memRead (c : Word) : s.advance.memRead c = s.memRead c := rfl

@[simp] theorem State.poke_memRead_eq (a v c : Word) : (s.poke a v).memRead c = (s.mem.write a v).read c := rfl

end Sys2Proof.Machine
end

