-- ==== Sys2Proof/Laws/Ops.lean ====
section
/-! SUPPORT. What the shared operations do, said once: the register file, memory in canonical form, the flag bits, the
fault, a store. -/

namespace Sys2Proof.Machine

/-! ### The register file -/

@[simp] theorem RegFile.get_set (f : RegFile) (r q : Reg) (v : Word) :
    (f.set r v).get q = if q = r then v else f.get q := by
  cases r <;> cases q <;> rfl

@[simp] theorem RegFile.set_get (f : RegFile) (r : Reg) : f.set r (f.get r) = f := by
  cases r <;> rfl

@[simp] theorem State.setReg_reg (s : State) (r q : Reg) (v : Word) :
    (s.setReg r v).reg q = if q = r then v else s.reg q :=
  RegFile.get_set s.regs r q v

theorem RegFile.ext_get (f g : RegFile) (h : ∀ r, f.get r = g.get r) : f = g := by
  have ha := h .A; have hb := h .B; have hc := h .C; have hd := h .D
  have he := h .E; have hl := h .HL; have hs := h .SR; have hf := h .FLAG
  cases f; cases g; simp_all [RegFile.get]

/-! ### Memory -/

/-- A list whose keys start at `lo` holds nothing below it. -/
theorem Memory.lookup_below {m : Memory} {lo n : Nat} (h : Memory.wfFrom lo m = true) (hn : n < lo) :
    Memory.lookup m n = memFill := by
  induction m generalizing lo with
  | nil => rfl
  | cons kv rest ih =>
    obtain ⟨k, v⟩ := kv
    simp only [Memory.wfFrom, Bool.and_eq_true, decide_eq_true_eq] at h
    have hk : k ≠ n := by omega
    simp only [Memory.lookup, if_neg hk]
    exact ih h.2 (by omega)

theorem Memory.wfFrom_mono {m : Memory} {lo lo' : Nat} (h : Memory.wfFrom lo m = true) (hl : lo' ≤ lo) :
    Memory.wfFrom lo' m = true := by
  cases m with
  | nil => rfl
  | cons kv rest =>
    simp only [Memory.wfFrom, Bool.and_eq_true, decide_eq_true_eq] at h ⊢
    exact ⟨⟨⟨by omega, h.1.1.2⟩, h.1.2⟩, h.2⟩

theorem Memory.lookup_insert {m : Memory} {lo : Nat} (h : Memory.wfFrom lo m = true) (n c : Nat) (v : Word) :
    Memory.lookup (Memory.insert m n v) c = if c = n then v else Memory.lookup m c := by
  induction m generalizing lo with
  | nil =>
    by_cases hc : c = n
    · subst hc; by_cases hv : v = memFill <;> simp [Memory.insert, Memory.lookup, hv]
    · have hc' : ¬ n = c := fun e => hc e.symm
      by_cases hv : v = memFill <;> simp [Memory.insert, Memory.lookup, hv, hc, hc']
  | cons kv rest ih =>
    obtain ⟨k, u⟩ := kv
    simp only [Memory.wfFrom, Bool.and_eq_true, decide_eq_true_eq] at h
    have below : ∀ j, j ≤ k → Memory.lookup rest j = memFill := fun j hj => Memory.lookup_below h.2 (by omega)
    rcases Nat.lt_trichotomy k n with hkn | hkn | hkn
    · simp only [Memory.insert, if_pos hkn, Memory.lookup]
      rw [ih h.2]
      have : c = k → ¬ c = n := by omega
      by_cases hc : k = c
      · subst hc; simp; omega
      · simp [hc]
    · subst hkn
      by_cases hc : c = k
      · subst hc
        by_cases hv : v = memFill <;> simp [Memory.insert, Memory.lookup, hv, below c (Nat.le_refl c)]
      · have hc' : ¬ k = c := fun e => hc e.symm
        by_cases hv : v = memFill <;> simp [Memory.insert, Memory.lookup, hv, hc, hc']
    · have hlt : ¬ k < n := by omega
      have hne : ¬ k = n := by omega
      have hb := below n (by omega)
      simp only [Memory.insert, if_neg hlt, if_neg hne]
      by_cases hv : v = memFill
      · rw [if_pos hv, hv]
        by_cases hc : c = n
        · subst hc; simp [Memory.lookup, hne, hb]
        · simp [hc]
      · rw [if_neg hv]
        by_cases hc : c = n
        · subst hc; simp [Memory.lookup]
        · have : ¬ n = c := fun e => hc e.symm
          simp [Memory.lookup, hc, this]

theorem Memory.wfFrom_insert {m : Memory} {lo n : Nat} (h : Memory.wfFrom lo m = true) (hl : lo ≤ n)
    (hn : n < Config.memWords) (v : Word) : Memory.wfFrom lo (Memory.insert m n v) = true := by
  induction m generalizing lo with
  | nil => by_cases hv : v = memFill <;> simp_all [Memory.insert, Memory.wfFrom]
  | cons kv rest ih =>
    obtain ⟨k, u⟩ := kv
    simp only [Memory.wfFrom, Bool.and_eq_true, decide_eq_true_eq] at h
    rcases Nat.lt_trichotomy k n with hkn | hkn | hkn
    · simp only [Memory.insert, if_pos hkn, Memory.wfFrom, Bool.and_eq_true, decide_eq_true_eq]
      exact ⟨h.1, ih h.2 (by omega)⟩
    · subst hkn
      by_cases hv : v = memFill
      · simp only [Memory.insert, Nat.lt_irrefl, if_false, if_true, hv]
        exact Memory.wfFrom_mono h.2 (by omega)
      · simp_all [Memory.insert, Memory.wfFrom]
    · have hlt : ¬ k < n := by omega
      have hne : ¬ k = n := by omega
      simp only [Memory.insert, if_neg hlt, if_neg hne]
      by_cases hv : v = memFill
      · rw [if_pos hv]
        simp only [Memory.wfFrom, Bool.and_eq_true, decide_eq_true_eq]
        exact h
      · rw [if_neg hv]
        simp only [Memory.wfFrom, Bool.and_eq_true, decide_eq_true_eq]
        exact ⟨⟨⟨hl, hn⟩, by simpa using hv⟩, ⟨⟨⟨by omega, h.1.1.2⟩, h.1.2⟩, h.2⟩⟩

/-- Every write of the bus keeps the canonical form. -/
theorem Memory.wf_write {m : Memory} (h : m.wf = true) (a v : Word) : (m.write a v).wf = true :=
  Memory.wfFrom_insert h (Nat.zero_le _) a.isLt v

/-- Read after write (20_memory.md R62). -/
theorem Memory.read_write {m : Memory} (h : m.wf = true) (a v c : Word) :
    (m.write a v).read c = if c = a then v else m.read c := by
  rw [Memory.read, Memory.write, Memory.lookup_insert h]
  simp only [Memory.read, BitVec.toNat_inj]

/-- The store of a state keeps the canonical form, and memory at reset has it. -/
theorem State.poke_wf {s : State} (h : s.mem.wf = true) (a v : Word) : (s.poke a v).mem.wf = true :=
  Memory.wf_write h a v

theorem reset_mem_wf : State.reset.mem.wf = true := rfl

@[simp] theorem Memory.read_nil (a : Word) : Memory.read [] a = memFill := rfl

/-! ### Flags -/

theorem getLsbD_putBit (n : Nat) (b : Bool) (v : Word) (k : Nat) (hk : k < 16) (hn : n < 16) :
    (putBit n b v).getLsbD k = if k = n then b else v.getLsbD k := by
  have key : (1#16 <<< n).getLsbD k = decide (k = n) := by
    simp only [BitVec.getLsbD_shiftLeft, BitVec.getLsbD_one]
    by_cases h : k = n
    · subst h; simp [hk]
    · simp only [h, decide_false]
      by_cases hlt : k < n
      · simp [hlt]
      · have : ¬ k - n = 0 := by omega
        simp [this]
  unfold putBit
  cases b
  · rw [if_neg (by simp), BitVec.getLsbD_and, BitVec.getLsbD_not, key]
    by_cases h : k = n <;> simp [h, hk]
  · rw [if_pos rfl, BitVec.getLsbD_or, key]
    by_cases h : k = n <;> simp [h]

/-! ### The fault and a store -/

section Fault
variable (f : Fault) (s : State)
@[simp] theorem takeFault_status : (takeFault f s).status = .faulted := rfl
@[simp] theorem takeFault_regs : (takeFault f s).regs = s.regs := rfl
@[simp] theorem takeFault_pc : (takeFault f s).pc = s.pc := rfl
@[simp] theorem takeFault_sp : (takeFault f s).sp = s.sp := rfl
@[simp] theorem takeFault_mem : (takeFault f s).mem = s.mem := rfl
@[simp] theorem takeFault_devices : (takeFault f s).devices = s.devices := rfl
@[simp] theorem takeFault_cycles : (takeFault f s).cycles = s.cycles := rfl
@[simp] theorem takeFault_phase : (takeFault f s).phase = s.phase := rfl
@[simp] theorem takeFault_params : (takeFault f s).params = s.params := rfl
@[simp] theorem takeFault_events : (takeFault f s).events = s.events ++ [.dump f s.dump] := rfl
end Fault

theorem regionOf_eq_rom (a : Word) : regionOf a = .rom ↔ a.toNat ≤ 0x7FFF := by
  unfold regionOf Config.romLast
  split
  · simp_all
  · repeat' split
    all_goals simp_all

/-- When a write stores (20_memory.md R65). -/
theorem canWrite_iff (s : State) (a : Word) :
    s.canWrite a = true ↔ s.params.romWritable = true ∨ 0x7FFF < a.toNat := by
  simp only [State.canWrite, Bool.or_eq_true, bne_iff_ne, ne_eq, regionOf_eq_rom, Nat.not_le]

/-- All a store can do: the word is written and the rest of the effect follows, or the fault is taken. -/
theorem busWrite_cases (a v : Word) (rest : State → State) (s : State) :
    (s.canWrite a = true ∧ busWrite a v rest s = rest (s.poke a v)) ∨
      (s.canWrite a = false ∧ busWrite a v rest s = takeFault (.romWrite a s.pc) s) := by
  unfold busWrite
  cases s.canWrite a <;> simp

theorem busWrite_stores {a : Word} {s : State} (h : s.canWrite a = true) (v : Word) (rest : State → State) :
    busWrite a v rest s = rest (s.poke a v) := by
  simp [busWrite, h]

end Sys2Proof.Machine
end

