-- ==== Sys2Proof/Laws/Alu.lean ====
section
/-! SUPPORT. What writing an ALU result does, said once (40_execution_cycle.md R156 to R158). -/

namespace Sys2Proof.Machine

theorem zext16_toNat (b : Byte) : (zext16 b).toNat = b.toNat := by
  have := b.isLt
  rw [zext16, BitVec.toNat_setWidth]
  omega

theorem trunc16_exactSum (x y : Word) (c : Bool) :
    trunc16 (exactSum x y c) = x + y + (if c = true then 1 else 0) := by
  apply BitVec.eq_of_toNat_eq
  cases c <;> simp [trunc16, exactSum]

theorem carryOut_exactSum (x y : Word) (c : Bool) :
    carryOut (exactSum x y c) = decide (0xFFFF < x.toNat + y.toNat + (if c = true then 1 else 0)) := by
  cases c <;> rfl

@[simp] theorem setZ_reg (r : Word) (s : State) (q : Reg) :
    (setZ r s).reg q = if q = .FLAG then putBit 0 (r == 0) (s.reg .FLAG) else s.reg q := by
  simp [setZ]

@[simp] theorem setC_reg (c : Bool) (s : State) (q : Reg) :
    (setC c s).reg q = if q = .FLAG then putBit 2 c (s.reg .FLAG) else s.reg q := by
  simp [setC]

@[simp] theorem setN_reg (r : Word) (s : State) (q : Reg) :
    (setN r s).reg q =
      if q = .FLAG ∧ s.params.aluWritesNegative = true then putBit 1 (r.getLsbD 15) (s.reg .FLAG) else s.reg q := by
  by_cases h : s.params.aluWritesNegative = true <;> simp [setN, h]

/-- Everything an ALU instruction can change: its effect bit by bit. -/
theorem aluWrite_effect (d : Reg) (r : Word) (carry : Option Bool) (s : State) :
    AluEffect d r carry s (aluWrite d r carry s) := by
  have hn : ∀ u : State, (setN r u).pc = u.pc ∧ (setN r u).sp = u.sp ∧ (setN r u).status = u.status ∧
      (setN r u).mem = u.mem ∧ KeepsEngine u (setN r u) := by
    intro u
    unfold setN
    split <;> exact ⟨rfl, rfl, rfl, rfl, rfl, rfl, rfl, rfl, rfl⟩
  have hp : ∀ c, (setC c (setZ r (s.setReg d r))).params = s.params := fun _ => rfl
  have hq : (setZ r (s.setReg d r)).params = s.params := rfl
  have zero : (r == 0) = decide (r = 0) := rfl
  refine ⟨?_, ?_, ?_⟩
  · intro x hx
    cases carry <;> simp [aluWrite, hx]
  · intro n hn16
    have low : ∀ (k : Nat) (b : Bool) (v : Word), k < 16 → (putBit k b v).getLsbD n = if n = k then b else v.getLsbD n :=
      fun k b v hk => getLsbD_putBit k b v n hn16 hk
    have flag : (s.setReg d r).reg .FLAG = if d = .FLAG then r else s.reg .FLAG := by
      simp only [State.setReg_reg, eq_comm]
    cases carry <;> by_cases hw : s.params.aluWritesNegative = true <;>
      simp only [aluWrite, State.advance_reg, setN_reg, setC_reg, setZ_reg, flag, hp, hq, hw, and_true, and_false,
        if_true, if_false, low 0 _ _ (by omega), low 1 _ _ (by omega), low 2 _ _ (by omega), Option.getD_none,
        Option.getD_some, zero, Bool.false_eq_true] <;>
      by_cases h0 : n = 0 <;> by_cases h1 : n = 1 <;> by_cases h2 : n = 2 <;> simp_all
  · cases carry with
    | none =>
      obtain ⟨a, b, c, e, f⟩ := hn (setZ r (s.setReg d r))
      refine ⟨by simp only [aluWrite, State.advance_pc, a]; rfl, b, c, fun x => ?_, f⟩
      simp only [State.memRead, aluWrite, State.advance_mem, e]
      rfl
    | some v =>
      obtain ⟨a, b, c, e, f⟩ := hn (setC v (setZ r (s.setReg d r)))
      refine ⟨by simp only [aluWrite, State.advance_pc, a]; rfl, b, c, fun x => ?_, f⟩
      simp only [State.memRead, aluWrite, State.advance_mem, e]
      rfl

end Sys2Proof.Machine
end

