-- ==== Sys2Proof/Laws/Boot.lean ====
section
/-! SUPPORT. Copying an image keeps memory in canonical form (20_memory.md R79). -/

namespace Sys2Proof.Machine

theorem copyImage_wf (ws : List Word) (a : Nat) (m : Memory) (h : m.wf = true) : (copyImage a ws m).wf = true := by
  induction ws generalizing a m with
  | nil => exact h
  | cons w ws ih => exact ih (a + 1) _ (Memory.wf_write h _ _)

end Sys2Proof.Machine
end

