-- ==== Sys2Proof/Laws/Decode.lean ====
section
/-! SUPPORT. The small lemmas of the encoding (30_encoding.md R100, R102, R103): the field tables both ways, and every field
of a word as a quotient and remainder of its number, the form in which `omega` can reason about words. -/

namespace Sys2Proof

@[simp] theorem Reg.ofIndex_index (r : Reg) : Reg.ofIndex r.index = r := by cases r <;> rfl

@[simp] theorem Reg.index_ofIndex (n : BitVec 3) : (Reg.ofIndex n).index = n := by revert n; decide

@[simp] theorem Mnemonic.ofOpcode_opcode (m : Mnemonic) : Mnemonic.ofOpcode m.opcode = m := by cases m <;> rfl

@[simp] theorem Mnemonic.opcode_ofOpcode (n : BitVec 4) : (Mnemonic.ofOpcode n).opcode = n := by revert n; decide

theorem encodeRegFields_toNat (op : BitVec 4) (reg1 r : BitVec 3) :
    (encodeRegFields op reg1 r).toNat = op.toNat * 4096 + reg1.toNat * 256 + r.toNat * 32 := by
  have := op.isLt; have := reg1.isLt; have := r.isLt
  simp only [encodeRegFields, BitVec.toNat_ofNat]
  omega

theorem encodeImmFields_toNat (op : BitVec 4) (reg1 : BitVec 3) (i : Byte) :
    (encodeImmFields op reg1 i).toNat = op.toNat * 4096 + 2048 + reg1.toNat * 256 + i.toNat := by
  have := op.isLt; have := reg1.isLt; have := i.isLt
  simp only [encodeImmFields, BitVec.toNat_ofNat]
  omega

theorem extract_toNat (w : Word) (start len : Nat) :
    (w.extractLsb' start len).toNat = w.toNat / 2 ^ start % 2 ^ len := by
  simp [BitVec.extractLsb'_toNat, Nat.shiftRight_eq_div_pow]

/-- The mode bit as arithmetic. -/
theorem modeBit_eq (w : Word) : w.getLsbD 11 = decide (w.toNat / 2048 % 2 = 1) := by
  simp [BitVec.getLsbD, Nat.testBit_eq_decide_div_mod_eq]

end Sys2Proof
end

