-- ==== Sys2Proof/Laws/Devices.lean ====
section
/-! SUPPORT. Everything the service of one device can do (60_exceptions.md R247 to R250), said once. -/

namespace Sys2Proof.Machine

/-- The state after a delivery that stores. -/
def delivered (n : Nat) (p : Word) (b : Byte) (s : State) : State :=
  ((((s.emit (.trySend n (some b))).poke p (zext16 b)).emit (.portWrite n p (zext16 b))).emit
    (.receive n b)).emit (.pendingCleared n)

/-- The four ways the service of a device ends: nothing pending; pending but no byte to write; a byte written; a port
write refused by a strict ROM. -/
theorem serviceDevice_cases (n : Nat) (d : Device) (s : State) :
    (d.ticked.pending = false ∧ serviceDevice n d s = (d.ticked, s.emit (.tick n))) ∨
      (d.ticked.pending = true ∧ d.delivery = none ∧ serviceDevice n d s =
        (d.ticked.cleared, ((s.emit (.tick n)).emit (.trySend n d.nextPoll.answer)).emit (.pendingCleared n))) ∨
      (∃ p b, d.ticked.pending = true ∧ d.delivery = some (p, b) ∧ s.canWrite p = true ∧
        serviceDevice n d s = (d.ticked.cleared, delivered n p b (s.emit (.tick n)))) ∨
      ∃ p b, d.ticked.pending = true ∧ d.delivery = some (p, b) ∧ s.canWrite p = false ∧
        serviceDevice n d s =
          (d.ticked, takeFault (.romWrite p s.pc) ((s.emit (.tick n)).emit (.trySend n (some b)))) := by
  have hport : d.ticked.port = d.port := rfl
  by_cases hp : d.ticked.pending = true
  · right
    cases ha : d.nextPoll.answer with
    | none => left; exact ⟨hp, by simp [Device.delivery, hp, ha], by simp [serviceDevice, hp, ha, deliver]⟩
    | some b =>
      cases hq : d.port with
      | none => left; exact ⟨hp, by simp [Device.delivery, hp, ha, hq], by simp [serviceDevice, hp, ha, deliver, hport, hq]⟩
      | some p =>
        have hd : d.delivery = some (p, b) := by simp [Device.delivery, hp, ha, hq]
        have hw : ((s.emit (.tick n)).emit (.trySend n (some b))).canWrite p = s.canWrite p := rfl
        right
        cases hc : s.canWrite p with
        | true =>
          left
          refine ⟨p, b, hp, hd, hc, ?_⟩
          simp only [serviceDevice, hp, if_true, ha, deliver, hport, hq, hw, hc]
          rfl
        | false =>
          right
          refine ⟨p, b, hp, hd, hc, ?_⟩
          simp only [serviceDevice, hp, if_true, ha, deliver, hport, hq, hw, hc, Bool.false_eq_true, if_false]
          rfl
  · left
    have hp' : d.ticked.pending = false := by simpa using hp
    exact ⟨hp', by simp [serviceDevice, hp']⟩

theorem serviceFrom_running (n : Nat) (d : Device) (ds : List Device) (s : State) (h : s.status = .running) :
    serviceFrom n (d :: ds) s =
      ((serviceDevice n d s).1 :: (serviceFrom (n + 1) ds (serviceDevice n d s).2).1,
        (serviceFrom (n + 1) ds (serviceDevice n d s).2).2) := by
  simp only [serviceFrom, h]

theorem serviceFrom_stopped (n : Nat) (ds : List Device) (s : State) (h : s.status ≠ .running) :
    serviceFrom n ds s = (ds, s) := by
  cases ds with
  | nil => rfl
  | cons d ds => cases hs : s.status <;> simp_all [serviceFrom]

/-- The devices of two lists one after the other: the second list starts where the first left the state. -/
theorem serviceFrom_append (before after : List Device) (n : Nat) (s : State) :
    serviceFrom n (before ++ after) s =
      ((serviceFrom n before s).1 ++ (serviceFrom (n + before.length) after (serviceFrom n before s).2).1,
        (serviceFrom (n + before.length) after (serviceFrom n before s).2).2) := by
  induction before generalizing n s with
  | nil => rfl
  | cons d ds ih =>
    by_cases h : s.status = .running
    · rw [List.cons_append, serviceFrom_running _ _ _ _ h, serviceFrom_running _ _ _ _ h, ih,
        show n + 1 + ds.length = n + (d :: ds).length by simp; omega]
      rfl
    · simp [serviceFrom_stopped _ _ _ h]

/-- With no device registered the device phase does nothing. -/
theorem devicePhase_none (s : State) (h : s.devices = []) : devicePhase s = s := by
  cases s; cases h; rfl

end Sys2Proof.Machine
end

