-- ==== Sys2Proof/Laws/PerInstr.lean ====
section
/-! SUPPORT. Per instruction: its written form passes the checks of WellFormed.lean (30_encoding.md R104, R118). -/

namespace Sys2Proof.Laws.SourceWellFormed

/-- The written form of the instruction has its shape's operands, in range. -/
def Statement (i : Instr) : Prop := i.wellFormed = true

theorem inRange_reg (r : Reg) : AsmOperand.inRange (.reg r) = true := rfl

theorem inRange_byte (k : Byte) : AsmOperand.inRange (.lit k.toNat) = true := by
  simpa [AsmOperand.inRange] using k.isLt

theorem nop : Statement .nop := rfl
theorem halt : Statement .halt := rfl
theorem mwReg (d r : Reg) : Statement (.mwReg d r) := rfl
theorem mwImm (d : Reg) (k : Byte) : Statement (.mwImm d k) := by
  simp [Statement, Instr.wellFormed, Instr.source, AsmInstr.wellFormed, Mnemonic.shape, Shape.arity, Shape.admits,
    inRange_byte, inRange_reg]
theorem mwl (k : Byte) : Statement (.mwl k) := by
  simp [Statement, Instr.wellFormed, Instr.source, AsmInstr.wellFormed, Mnemonic.shape, Shape.arity, Shape.admits,
    inRange_byte]
theorem mwh (k : Byte) : Statement (.mwh k) := by
  simp [Statement, Instr.wellFormed, Instr.source, AsmInstr.wellFormed, Mnemonic.shape, Shape.arity, Shape.admits,
    inRange_byte]
theorem lwReg (d r : Reg) : Statement (.lwReg d r) := rfl
theorem lwImm (d : Reg) (k : Byte) : Statement (.lwImm d k) := by
  simp [Statement, Instr.wellFormed, Instr.source, AsmInstr.wellFormed, Mnemonic.shape, Shape.arity, Shape.admits,
    inRange_byte, inRange_reg]
theorem swReg (d r : Reg) : Statement (.swReg d r) := rfl
theorem swImm (k : Byte) (r : Reg) : Statement (.swImm k r) := by
  simp [Statement, Instr.wellFormed, Instr.source, AsmInstr.wellFormed, Mnemonic.shape, Shape.arity, Shape.admits,
    inRange_byte, inRange_reg]
theorem addReg (d r : Reg) : Statement (.addReg d r) := rfl
theorem addImm (d : Reg) (k : Byte) : Statement (.addImm d k) := by
  simp [Statement, Instr.wellFormed, Instr.source, AsmInstr.wellFormed, Mnemonic.shape, Shape.arity, Shape.admits,
    inRange_byte, inRange_reg]
theorem subReg (d r : Reg) : Statement (.subReg d r) := rfl
theorem subImm (d : Reg) (k : Byte) : Statement (.subImm d k) := by
  simp [Statement, Instr.wellFormed, Instr.source, AsmInstr.wellFormed, Mnemonic.shape, Shape.arity, Shape.admits,
    inRange_byte, inRange_reg]
theorem andReg (d r : Reg) : Statement (.andReg d r) := rfl
theorem andImm (d : Reg) (k : Byte) : Statement (.andImm d k) := by
  simp [Statement, Instr.wellFormed, Instr.source, AsmInstr.wellFormed, Mnemonic.shape, Shape.arity, Shape.admits,
    inRange_byte, inRange_reg]
theorem addcReg (d r : Reg) : Statement (.addcReg d r) := rfl
theorem addcImm (d : Reg) (k : Byte) : Statement (.addcImm d k) := by
  simp [Statement, Instr.wellFormed, Instr.source, AsmInstr.wellFormed, Mnemonic.shape, Shape.arity, Shape.admits,
    inRange_byte, inRange_reg]
theorem notReg (d r : Reg) : Statement (.notReg d r) := rfl
theorem notImm (d : Reg) (k : Byte) : Statement (.notImm d k) := by
  simp [Statement, Instr.wellFormed, Instr.source, AsmInstr.wellFormed, Mnemonic.shape, Shape.arity, Shape.admits,
    inRange_byte, inRange_reg]
theorem jmpzReg (r : Reg) : Statement (.jmpzReg r) := rfl
theorem jmpzImm (k : Byte) : Statement (.jmpzImm k) := by
  simp [Statement, Instr.wellFormed, Instr.source, AsmInstr.wellFormed, Mnemonic.shape, Shape.arity, Shape.admits,
    inRange_byte]
theorem jmpnReg (r : Reg) : Statement (.jmpnReg r) := rfl
theorem jmpnImm (k : Byte) : Statement (.jmpnImm k) := by
  simp [Statement, Instr.wellFormed, Instr.source, AsmInstr.wellFormed, Mnemonic.shape, Shape.arity, Shape.admits,
    inRange_byte]
theorem pushReg (r : Reg) : Statement (.pushReg r) := rfl
theorem pushImm (k : Byte) : Statement (.pushImm k) := by
  simp [Statement, Instr.wellFormed, Instr.source, AsmInstr.wellFormed, Mnemonic.shape, Shape.arity, Shape.admits,
    inRange_byte]
theorem pop (d : Reg) : Statement (.pop d) := rfl

end Sys2Proof.Laws.SourceWellFormed
end

