-- ==== Sys2Proof/Laws/Step.lean ====
section
/-! SUPPORT. Everything a step can do (60_exceptions.md R253; 40_execution_cycle.md R150), said once. -/

namespace Sys2Proof.Machine

/-- Every instruction answers a next state. -/
theorem exec_next (i : Instr) (s : State) : ∃ t, exec i s = .next t := by
  cases i <;> exact ⟨_, rfl⟩

theorem mapNext_eq_next {f : State → State} {o : Host.Outcome State Fault Refusal} {t : State}
    (h : mapNext f o = .next t) : ∃ u, o = .next u ∧ t = f u := by
  cases o <;> simp_all [mapNext]

/-- The three ways of a CPU step: stopped, an instruction executed, the fault taken. -/
theorem cpuStep_cases {s t : State} (h : cpuStep s = .next t) :
    (s.status ≠ .running ∧ t = s) ∨
      (∃ i, s.status = .running ∧ decode s.params.decodePolicy (fetch s) = .ok i ∧ exec i s = .next t) ∨
      ∃ e, s.status = .running ∧ decode s.params.decodePolicy (fetch s) = .error e ∧
        t = takeFault (.invalidInstruction (fetch s) s.pc) s := by
  unfold cpuStep at h
  cases hs : s.status with
  | running =>
    simp only [hs] at h
    cases hd : decode s.params.decodePolicy (fetch s) with
    | ok i => simp only [hd] at h; exact .inr (.inl ⟨i, rfl, rfl, h⟩)
    | error e => simp only [hd] at h; cases h; exact .inr (.inr ⟨e, rfl, rfl, rfl⟩)
  | halted => simp only [hs] at h; cases h; exact .inl ⟨by simp, rfl⟩
  | faulted => simp only [hs] at h; cases h; exact .inl ⟨by simp, rfl⟩

theorem mayCycle_iff (s : State) : s.mayCycle = true ↔ s.status = .running ∧ s.cycles < s.params.cycleCap := by
  simp [State.mayCycle]

/-- The three ways of a step: the run is over, a cycle, the exit of the loop. -/
theorem step_cases {s t : State} (h : step s = .next t) :
    (s.phase = .ended ∧ t = s) ∨
      (∃ u, s.Live ∧ cpuStep (devicePhase s) = .next u ∧ t = u.countCycle) ∨
      (s.phase = .looping ∧ ¬ (s.status = .running ∧ s.cycles < s.params.cycleCap) ∧ t = shutdownAll s) := by
  unfold step runStep at h
  cases hp : s.phase with
  | ended => simp only [hp] at h; cases h; exact .inl ⟨rfl, rfl⟩
  | looping =>
    simp only [hp] at h
    by_cases hc : s.mayCycle = true
    · rw [if_pos hc] at h
      obtain ⟨u, hu, rfl⟩ := mapNext_eq_next h
      have := (mayCycle_iff s).1 hc
      exact .inr (.inl ⟨u, ⟨hp, this.1, this.2⟩, hu, rfl⟩)
    · rw [if_neg hc] at h
      cases h
      exact .inr (.inr ⟨rfl, fun h => hc ((mayCycle_iff s).2 h), rfl⟩)

/-- A live state's step is a cycle. -/
theorem step_live {s : State} (h : s.Live) : step s = cycle s := by
  have hc : s.mayCycle = true := (mayCycle_iff s).2 h.2
  simp only [step, runStep, h.1, hc, if_true]

@[simp] theorem core_run_zero (s : State) : core.run 0 s = .next s := rfl

/-- A run of one more step, after a step that answers a next state. -/
theorem core_run_succ {s t : State} (n : Nat) (h : step s = .next t) : core.run (n + 1) s = core.run n t := by
  have : core.step s = .next t := h
  simp only [Host.Core.run, this]

end Sys2Proof.Machine
end

