-- ==== Sys2Proof/Tests/Slice0.lean ====
section
/-! SUPPORT. The model's own tests. Expected values are the spec's: 95_test_vectors.md where a vector is named, the rule
named otherwise. The `witness_` theorems show a concrete state that meets the hypotheses of the statement they name. -/

namespace Sys2Proof.Tests
open Sys2Proof.Machine

/-! ### Well-formedness: an ill-formed term for each check -/

theorem test_wf_accepts : AsmInstr.wellFormed ⟨.MW, [.reg .A, .lit 255]⟩ = true := by decide
theorem test_wf_refuses_count : AsmInstr.wellFormed ⟨.MW, [.reg .A]⟩ = false := by decide
theorem test_wf_refuses_kind : AsmInstr.wellFormed ⟨.MW, [.lit 5, .reg .A]⟩ = false := by decide
theorem test_wf_refuses_range : AsmInstr.wellFormed ⟨.MW, [.reg .A, .lit 256]⟩ = false := by decide
theorem test_wf_refuses_kind_each_shape :
    AsmInstr.wellFormed ⟨.NOP, [.lit 0]⟩ = false ∧ AsmInstr.wellFormed ⟨.POP, [.lit 5]⟩ = false ∧
      AsmInstr.wellFormed ⟨.MWL, [.reg .A]⟩ = false ∧ AsmInstr.wellFormed ⟨.SW, [.reg .A, .lit 1]⟩ = false := by decide

/-- Part 2.2: each clause of R107, by the name it is rejected under. -/
theorem test_malformed_by_name :
    decode .strict 0x0001 = .error .operandBitsSet ∧ decode .strict 0x1FFF = .error .operandBitsSet ∧
      decode .strict 0x3000 = .error .immediateFormOnly ∧ decode .strict 0x3900 = .error .reg1Set ∧
      decode .strict 0x7021 = .error .lowBitsSet ∧ decode .strict 0xC100 = .error .reg1Set ∧
      decode .strict 0xC001 = .error .lowBitsSet ∧ decode .strict 0xF800 = .error .registerFormOnly ∧
      decode .strict 0xF020 = .error .lowByteSet ∧ decode .strict 0xFFFF = .error .registerFormOnly := by decide

/-- Part 5: what F1 to F4 are under `lenient`. F4 follows R109: bit 11 of `0xE900` is set, so it is `PUSH 0`, not the
`PUSH A` part 5 prints (log entry 6). -/
theorem test_lenient : decode .lenient 0xFFFF = .ok (.pop .FLAG) ∧ decode .lenient 0x3000 = .ok (.mwl 0) ∧
    decode .lenient 0x2005 = .ok (.mwReg .A .A) ∧ decode .lenient 0xE900 = .ok (.pushImm 0) := by decide

/-! ### Every constructor by a word written out from the encoding: op(4) mode(1) reg1(3) low byte(8), part 2.1 and R106 -/

theorem test_decode_system :
    decode .strict 0b0000_0_000_00000000 = .ok .nop ∧
      decode .strict 0b0001_0_000_00000000 = .ok .halt := by decide

theorem test_decode_move :
    decode .strict 0b0010_0_101_01000000 = .ok (.mwReg .HL .C) ∧
      decode .strict 0b0010_1_111_11111111 = .ok (.mwImm .FLAG 255) ∧
      decode .strict 0b0011_1_000_11111110 = .ok (.mwl 0xFE) ∧
      decode .strict 0b0100_1_000_11000000 = .ok (.mwh 0xC0) := by decide

theorem test_decode_load_store :
    decode .strict 0b0101_0_000_10100000 = .ok (.lwReg .A .HL) ∧
      decode .strict 0b0101_1_001_00010000 = .ok (.lwImm .B 0x10) ∧
      decode .strict 0b0110_0_001_10100000 = .ok (.swReg .HL .B) ∧
      decode .strict 0b0110_1_001_00100000 = .ok (.swImm 0x20 .B) := by decide

theorem test_decode_alu_sum :
    decode .strict 0b0111_0_000_00100000 = .ok (.addReg .A .B) ∧
      decode .strict 0b0111_1_111_00000011 = .ok (.addImm .FLAG 3) ∧
      decode .strict 0b1000_0_011_11000000 = .ok (.subReg .D .SR) ∧
      decode .strict 0b1000_1_000_00000001 = .ok (.subImm .A 1) := by decide

theorem test_decode_alu_logic :
    decode .strict 0b1001_0_110_01100000 = .ok (.andReg .SR .D) ∧
      decode .strict 0b1001_1_000_00001111 = .ok (.andImm .A 15) ∧
      decode .strict 0b1010_0_010_01100000 = .ok (.addcReg .C .D) ∧
      decode .strict 0b1010_1_100_10000000 = .ok (.addcImm .E 128) ∧
      decode .strict 0b1011_0_000_00100000 = .ok (.notReg .A .B) ∧
      decode .strict 0b1011_1_010_01010101 = .ok (.notImm .C 0x55) := by decide

theorem test_decode_jump :
    decode .strict 0b1100_0_000_10100000 = .ok (.jmpzReg .HL) ∧
      decode .strict 0b1100_1_000_00000111 = .ok (.jmpzImm 7) ∧
      decode .strict 0b1101_0_000_10000000 = .ok (.jmpnReg .E) ∧
      decode .strict 0b1101_1_000_01000000 = .ok (.jmpnImm 0x40) := by decide

theorem test_decode_stack :
    decode .strict 0b1110_0_000_01000000 = .ok (.pushReg .C) ∧
      decode .strict 0b1110_1_000_00101010 = .ok (.pushImm 0x2A) ∧
      decode .strict 0b1111_0_100_00000000 = .ok (.pop .E) := by decide

theorem test_decodeTableWord : decodeTableWord 16 0x2805 = some (.mwImm .A 5) ∧ decodeTableWord 16 0x2005 = none := by
  decide

/-! ### One step each, part 3. `one w s f` is what `f` reads after the step that runs `w` at `s`. -/

def one {α : Type} (w : Word) (s : State) (f : State → α) : Option α :=
  match step (s.withFetchWord 16 w.toNat) with
  | .next t => some (f t)
  | .fault _ => none
  | .refused _ => none

/-- The reset state with some registers written. -/
def start (rs : List (Reg × Word)) : State := rs.foldl (fun s rv => s.setReg rv.1 rv.2) State.reset

/-- The start state with `ALU_WRITES_NEGATIVE = true`. -/
def startN (rs : List (Reg × Word)) : State := { start rs with params := { defaultParams with aluWritesNegative := true } }

/-- The start state with ROM not writable. -/
def startRom (rs : List (Reg × Word)) : State := { start rs with params := { defaultParams with romWritable := false } }

/-- Y2. -/
theorem test_nop : one 0x0000 (State.reset.setPc 0xFFFF) (fun t => t.pc) = some 0 := by decide
/-- Y3. -/
theorem test_halt : one 0x1000 ((start [(.A, 5)]).setPc 7) (fun t => (t.status, t.pc, t.reg .A)) = some (.halted, 7, 5) := by decide
/-- M2. -/
theorem test_mwReg : one 0x2100 (start [(.A, 0xBEEF)]) (fun t => (t.reg .B, t.pc)) = some (0xBEEF, 1) := by decide
/-- M4. -/
theorem test_mwImm : one 0x28FF (start [(.A, 0xFFFF)]) (fun t => t.reg .A) = some 0x00FF := by decide
/-- M3. -/
theorem test_mwImm_flag : one 0x2F01 (start [(.FLAG, 0xFFF6)]) (fun t => t.reg .FLAG) = some 0x0001 := by decide
/-- M6. -/
theorem test_mwl : one 0x38FE (start [(.HL, 0xFD00)]) (fun t => t.reg .HL) = some 0xFDFE := by decide
/-- M9. -/
theorem test_mwh : one 0x4800 (start [(.HL, 0xABCD)]) (fun t => t.reg .HL) = some 0x00CD := by decide
/-- L3: the address is read before the write. -/
theorem test_lwReg : one 0x55A0 ((start [(.HL, 0xC000)]).poke 0xC000 0x8001) (fun t => t.reg .HL) = some 0x8001 := by decide
/-- L4. -/
theorem test_lwReg_self : one 0x5100 (State.reset) (fun t => t.reg .B) = some 0x5100 := by decide
/-- L2. -/
theorem test_lwImm : one 0x5810 (State.reset.poke 0x10 0xCAFE) (fun t => t.reg .A) = some 0xCAFE := by decide
/-- L12. -/
theorem test_swReg : one 0x60A0 (start [(.HL, 0xFFFF), (.A, 1)]) (fun t => (t.memRead 0xFFFF, t.reg .A, t.pc)) = some (1, 1, 1) := by decide
/-- L11 with `ROM_WRITABLE = false`. -/
theorem test_swReg_rom_fault : one 0x6100 (startRom [(.A, 0x0100), (.B, 0x5555)]) (fun t => (t.status, t.memRead 0x100, t.pc)) = some (.faulted, 0, 0) := by decide
/-- L8. -/
theorem test_swImm : one 0x6920 (start [(.B, 0xAAAA)]) (fun t => (t.memRead 0x20, t.memRead 0x21)) = some (0xAAAA, 0) := by decide
/-- U5. -/
theorem test_addReg : one 0x7000 (start [(.A, 0xC001)]) (fun t => (t.reg .A, t.reg .FLAG)) = some (0x8002, 4) := by decide
/-- U5 with `ALU_WRITES_NEGATIVE = true`. -/
theorem test_addReg_n : one 0x7000 (startN [(.A, 0xC001)]) (fun t => t.reg .FLAG) = some 6 := by decide
/-- U7. -/
theorem test_addImm : one 0x7F03 (start [(.FLAG, 4)]) (fun t => t.reg .FLAG) = some 2 := by decide
/-- U2. -/
theorem test_addImm_wrap : one 0x7801 (start [(.A, 0xFFFF)]) (fun t => (t.reg .A, t.reg .FLAG)) = some (0, 5) := by decide
/-- U10. -/
theorem test_subReg : one 0x8020 (start [(.A, 5), (.B, 7)]) (fun t => (t.reg .A, t.reg .B, t.reg .FLAG)) = some (0xFFFE, 7, 4) := by decide
/-- U13. -/
theorem test_subReg_self : one 0x8000 (start [(.A, 0x1234), (.FLAG, 6)]) (fun t => (t.reg .A, t.reg .FLAG)) = some (0, 3) := by decide
/-- U14. -/
theorem test_subImm : one 0x8800 (start [(.A, 0x8000), (.FLAG, 5)]) (fun t => t.reg .FLAG) = some 0 := by decide
/-- U17. -/
theorem test_andReg : one 0x9020 (start [(.A, 0xF0F0), (.B, 0x0F0F), (.FLAG, 4)]) (fun t => (t.reg .A, t.reg .FLAG)) = some (0, 5) := by decide
/-- U16. -/
theorem test_andImm : one 0x980F (start [(.A, 0x12F5), (.FLAG, 4)]) (fun t => (t.reg .A, t.reg .FLAG)) = some (5, 4) := by decide
/-- U21. -/
theorem test_addcReg : one 0xA260 (start [(.C, 2), (.D, 3), (.FLAG, 4)]) (fun t => (t.reg .C, t.reg .FLAG)) = some (6, 0) := by decide
/-- U23. -/
theorem test_addcReg_max : one 0xA020 (start [(.A, 0xFFFF), (.B, 0xFFFF), (.FLAG, 4)]) (fun t => (t.reg .A, t.reg .FLAG)) = some (0xFFFF, 4) := by decide
/-- U26. -/
theorem test_addcImm : one 0xAF00 (start [(.FLAG, 4)]) (fun t => t.reg .FLAG) = some 0 := by decide
/-- U31. -/
theorem test_notReg : one 0xB720 (start [(.B, 0xFFF8)]) (fun t => t.reg .FLAG) = some 6 := by decide
/-- U30. -/
theorem test_notImm : one 0xB8FF (start [(.FLAG, 1)]) (fun t => (t.reg .A, t.reg .FLAG)) = some (0xFF00, 0) := by decide
/-- J6. -/
theorem test_jmpzReg_taken : one 0xC0E0 ((start [(.FLAG, 0x0101)]).setPc 4) (fun t => t.pc) = some 0x0101 := by decide
/-- J4. -/
theorem test_jmpzReg_not : one 0xC0A0 ((start [(.HL, 0x0200)]).setPc 0xFFFF) (fun t => t.pc) = some 0 := by decide
/-- J1. -/
theorem test_jmpzImm_taken : one 0xC807 ((start [(.FLAG, 1)]).setPc 4) (fun t => t.pc) = some 7 := by decide
/-- J2. -/
theorem test_jmpzImm_not : one 0xC807 ((start [(.FLAG, 6)]).setPc 4) (fun t => t.pc) = some 5 := by decide
/-- J9. -/
theorem test_jmpnReg : one 0xD020 ((start [(.FLAG, 0xFFFF), (.B, 0xC000)]).setPc 0x10) (fun t => t.pc) = some 0xC000 := by decide
/-- J7. -/
theorem test_jmpnImm_taken : one 0xD840 ((start [(.FLAG, 2)]).setPc 0x10) (fun t => t.pc) = some 0x40 := by decide
/-- J8. -/
theorem test_jmpnImm_not : one 0xD840 ((start [(.FLAG, 5)]).setPc 0x10) (fun t => t.pc) = some 0x11 := by decide
/-- S3. -/
theorem test_pushReg : one 0xE000 (((start [(.A, 0x1111)]).setSp 0).setPc 0x10) (fun t => (t.sp, t.memRead 0xFFFF, t.pc)) = some (0xFFFF, 0x1111, 0x11) := by decide
/-- S5: it overwrites its own word with the word an unlisted address reads as. -/
theorem test_pushImm : one 0xE800 (State.reset.setSp 1) (fun t => (t.sp, t.memRead 0, t.mem)) = some (0, 0, []) := by decide
/-- S7. -/
theorem test_pop : one 0xF500 (State.reset.poke 0xFDFD 0x0BAD) (fun t => (t.reg .HL, t.sp)) = some (0x0BAD, 0xFDFE) := by decide
/-- S8. -/
theorem test_pop_wrap : one 0xF000 ((State.reset.setSp 0xFFFF).poke 0xFFFF 0xAA) (fun t => (t.reg .A, t.sp)) = some (0xAA, 0) := by decide
/-- F1. -/
theorem test_fault : one 0xFFFF ((start [(.A, 5)]).setPc 1) (fun t => (t.status, t.pc, t.reg .A, t.sp, t.events)) = some 
      (.faulted, 1, 5, 0xFDFD, [.dump (.invalidInstruction 0xFFFF 1) ⟨(start [(.A, 5)]).regs, 1, 0xFDFD, 0xFFFF⟩]) := by decide

/-! ### Reset, devices, the run loop, the image and the assembler -/

/-- Part 4: registers, `pc`, `sp`. -/
theorem test_reset : State.reset.pc = 0 ∧ State.reset.sp = 0xFDFD ∧ State.reset.reg .FLAG = 0 := by decide

/-- The keyboard, raising its flag in its first `tick`. -/
def keyboard (answer : Option Byte) : Device := ⟨some 0xFDFE, false, [⟨true, answer⟩]⟩

/-- The reset state with devices. -/
def withDevices (ds : List Device) : State := { State.reset with devices := ds }

/-- V1, cycle 0. -/
theorem test_delivery : one 0x0000 (withDevices [keyboard (some 0x41)]) (fun t => (t.events, t.memRead 0xFDFE, t.pc)) =
    some ([.tick 0, .trySend 0 (some 0x41), .portWrite 0 0xFDFE 0x41, .receive 0 0x41, .pendingCleared 0], 0x41, 1) := by
  decide

/-- V2. -/
theorem test_delivery_none : one 0x0000 (withDevices [keyboard none]) (fun t => (t.events, t.mem)) =
    some ([.tick 0, .trySend 0 none, .pendingCleared 0], []) := by decide

/-- V3: the later of two devices on one port wins. -/
theorem test_two_devices : one 0x0000 (withDevices [keyboard (some 0x41), keyboard (some 0x7F)])
    (fun t => (t.memRead 0xFDFE, t.events.length)) = some (0x7F, 10) := by decide

/-- V7: the dump comes before the `shutdown` of the next step. -/
theorem test_shutdown_after_dump : (match core.run 2 ((withDevices [keyboard none]).placeAtPc 0xFFFF) with
    | .next t => (t.events.drop 3).map (fun e => (e.isDump, e.isShutdown))
    | .fault _ => []
    | .refused _ => []) = [(true, false), (false, true)] := by decide

/-- V6, `CYCLE_CAP = 0`: no cycle runs. -/
theorem test_cap_zero : one 0x7801 { State.reset with params := { defaultParams with cycleCap := 0 } }
    (fun t => (t.phase, t.pc, t.cycles)) = some (.ended, 0, 0) := by decide

/-- Part 4 with `LOAD_ADDR = 4`; part 2.4. -/
theorem test_boot : (match boot defaultParams [] [0x2805, 0x1000] 4 with
    | .ok s => some (s.memRead 4, s.memRead 5, s.memRead 0, s.pc)
    | .error _ => none) = some (0x2805, 0x1000, 0, 0) := by decide

/-- Part 4: with no `LOAD_ADDR` given the image is at 0 (R8). -/
theorem test_boot_default : (match boot defaultParams [] [0x2805, 0x1000] with
    | .ok s => some (s.memRead 0, s.memRead 1, s.memRead 2)
    | .error _ => none) = some (0x2805, 0x1000, 0) := by decide

/-- Part 2.4. -/
theorem test_image : imageOfFile [0x05, 0x28] = .ok [0x2805] ∧ imageOfFile [0, 0, 0] = .error .oddByteCount := by decide

/-- The words of a text, none for an error. -/
def words (source : String) : Option (List Word) :=
  match Assembler.assemble ['f'] source.toList none with
  | .ok ws => some ws
  | .error _ => none

/-- A4. -/
theorem test_asm_label : words "@end\nJMPZ HL\nNOP\nend:\nHALT" = some [0x4800, 0x3804, 0xC0A0, 0x0000, 0x1000] := by decide

/-- A9 and A11. -/
theorem test_asm_sigil_comment : words ".loop:\nNOP\n@loop" = some [0x0000, 0x4800, 0x3800] ∧
    words "SW HL, A ; store\n\n  LW B, 0x10  " = some [0x60A0, 0x5910] := by decide

/-- A3 and A6. -/
theorem test_asm_const_org : words "const TEN 10\nMW A, TEN\nHALT" = some [0x280A, 0x1000] ∧
    words "NOP\n.org 4\nHALT" = some [0, 0, 0, 0, 0x1000] := by decide

/-- E2 and E5. -/
theorem test_asm_errors : Assembler.assemble ['f'] "MW A 5".toList none = .error ⟨.expectedComma, ['f'], 1⟩ ∧
    Assembler.assemble ['f'] "NOP\nNOP\n.org 1".toList none = .error ⟨.directive, ['f'], 3⟩ := by decide

/-- R122: the mnemonic is a token too. R121: `.org` sees the constants defined before it only. R131: a file that cannot be
opened. -/
theorem test_asm_constants_and_file : words "const NOP 5\nNOP" = none ∧ words "const X 3\n.org X\nHALT" = some [0, 0, 0, 0x1000] ∧
    words ".org X\nconst X 3" = none ∧ words ".org 1\nconst 1 2\nMW A, 1" = some [0, 0x2802] ∧
    Assembler.assembleFile ['f'] .cannotOpen none = .error ⟨.fileOpen, ['f'], 1⟩ := by decide

/-- R123: pass 1 answers the tables and the program length. -/
theorem test_asm_pass_one : Assembler.passOne ['f'] 1 0 ⟨[], []⟩ [.target ['x'], .label ['x'], .org ['4']] =
    .ok ⟨⟨[(['x'], 2)], []⟩, 4⟩ := by decide

/-! ### Witnesses: the hypotheses of each statement that has some, met together -/

theorem witness_EncodeFieldsRoundTrip : wellFormed 0x2805 = true ∧ wellFormed 0x61A0 = true ∧
    (decodeFields 0x2005).mode = false ∧ (0x2005 : Word).extractLsb' 0 5 ≠ 0 := by decide

theorem witness_EncodeDecodeAgree : decode .strict 0x61A0 = .ok (.swReg .HL .B) := by decide

theorem witness_StrictAcceptsExactlyTheOpcodeForms : (⟨0xF81F, 0x6000, .SW⟩ : Form) ∈ opcodeForms ∧
    (⟨0xF81F, 0x6000, .SW⟩ : Form).covers 0x61A0 = true ∧ decode .strict 0x61A0 = .ok (.swReg .HL .B) := by decide

/-- A word for each clause: a well-formed one, and for each opcode group an ill-formed one and its pair. -/
theorem witness_LenientIgnoresUnusedFields : wellFormed 0x2805 = true ∧ (decodeFields 0x0FFF).op = 0 ∧
    (decodeFields 0x1FFF).op = 1 ∧ (decodeFields 0x3000).op = 3 ∧ (decodeFields 0x4FFF).op = 4 ∧
    (decodeFields 0xFFFF).op = 0xF ∧
    ((decodeFields 0xC905).op = (decodeFields 0xC805).op ∧ (decodeFields 0xC905).mode = (decodeFields 0xC805).mode ∧
      (0xC905 : Word).extractLsb' 0 8 = (0xC805 : Word).extractLsb' 0 8 ∧ (decodeFields 0xC905).op = 0xC) ∧
    ((decodeFields 0xD720).op = 0xD ∧ (decodeFields 0xE920).op = 0xE) ∧
    ((decodeFields 0x2005).mode = false ∧ (0x2005 : Word).extractLsb' 5 11 = (0x2000 : Word).extractLsb' 5 11 ∧
      (decodeFields 0x2005).op ≠ 3 ∧ (decodeFields 0x2005).op ≠ 4) := by decide

theorem witness_CheckedSourceIsTheInstruction :
    Assembler.checkInstr ⟨.SW, [.lit 0x20, .reg .B]⟩ = .ok (.swImm 0x20 .B) := by decide

/-- With a device that delivers, and with none. -/
theorem witness_StepRunsTheDecodedInstruction :
    let s := (withDevices [keyboard (some 0x41)]).placeAtPc 0x2805
    let u := State.reset.placeAtPc 0x2805
    (s.Live ∧ (devicePhase s).status = .running ∧
      decode (devicePhase s).params.decodePolicy ((devicePhase s).memRead (devicePhase s).pc) = .ok (.mwImm .A 5)) ∧
    u.Live ∧ u.devices = [] ∧ decode u.params.decodePolicy (u.memRead u.pc) = .ok (.mwImm .A 5) := by decide

theorem witness_UndecodableWordTakesTheFault :
    let s := (withDevices [keyboard (some 0x41)]).placeAtPc 0x3000
    s.Live ∧ (devicePhase s).status = .running ∧
      decode (devicePhase s).params.decodePolicy ((devicePhase s).memRead (devicePhase s).pc) =
        .error .immediateFormOnly := by decide

theorem witness_StoppedCpuStepDoesNothing : (State.reset.setStatus .halted).status ≠ .running ∧
    (State.reset.setStatus .faulted).status ≠ .running := by decide

/-- A running state with ROM writable whose step faults at decode. -/
theorem witness_OnlyDecodingFaults :
    let s := State.reset.placeAtPc 0x3000
    s.params.romWritable = true ∧ s.status = .running ∧ ∃ t, cpuStep s = .next t ∧ t.status = .faulted :=
  ⟨rfl, rfl, _, rfl, rfl⟩

/-- A state with a pending device served, and one whose cycle count has reached the cap. -/
theorem witness_StepKeepsInvariant :
    (∃ t, (withDevices [keyboard (some 0x41)]).Inv ∧ step (withDevices [keyboard (some 0x41)]) = .next t) ∧
      ({ State.reset with cycles := 0x100000000 } : State).Inv :=
  ⟨⟨_, by decide, rfl⟩, by decide⟩

/-- While the loop runs, and after it has ended. -/
theorem witness_StepKeepsOutputsInOrder :
    (∃ t, State.reset.OutputsInOrder ∧ step State.reset = .next t) ∧
      ∃ t, (shutdownAll (withDevices [keyboard none])).OutputsInOrder ∧
        step (shutdownAll (withDevices [keyboard none])) = .next t := by
  refine ⟨⟨_, ⟨rfl, fun _ => rfl, fun h => ?_⟩, rfl⟩, ⟨_, ⟨rfl, fun h => ?_, fun _ => ⟨[], rfl, rfl⟩⟩, rfl⟩⟩
  · exact absurd h (by decide)
  · exact absurd h (by decide)

/-- An image whose last word is the last of ROM. -/
theorem witness_BootEstablishesInvariants :
    ∃ s, boot defaultParams [keyboard (some 0x41)] [0x2805, 0x1000] 0x7FFE = .ok s := ⟨_, rfl⟩

theorem witness_EveryRunEnds : (State.reset.phase = .looping ∧ State.reset.cycles ≤ State.reset.params.cycleCap) ∧
    ({ State.reset with cycles := 0x100000000 } : State).cycles ≤ State.reset.params.cycleCap := by decide

theorem witness_StoppedRunIsFrozen : (State.reset.setStatus .halted).status ≠ .running := by decide

theorem witness_StepKeepsTheConfiguration :
    (∃ t, State.reset.Live ∧ step State.reset = .next t) ∧
      ∃ t, ¬ (State.reset.setStatus .halted).Live ∧ step (State.reset.setStatus .halted) = .next t :=
  ⟨⟨_, by decide, rfl⟩, ⟨_, by decide, rfl⟩⟩

/-- Stopped by the status, and by the cap. -/
theorem witness_RunExitShutsDownOnce :
    ((State.reset.setStatus .halted).phase = .looping ∧ (State.reset.setStatus .halted).status ≠ .running) ∧
      (State.reset.params.cycleCap ≤ ({ State.reset with cycles := 0x100000000 } : State).cycles) := by decide

/-- A state in which an ill-formed word is fetched, for the clauses that end in `RaisesInvalidInstruction`. -/
theorem witness_RaisesInvalidInstruction (w : Word) (h : w = 0x3900 ∨ w = 0xFFFF ∨ w = 0x0001) :
    let s := State.reset.placeAtPc w
    s.status = .running ∧ s.params.decodePolicy = .strict ∧ fetch s = w := by
  rcases h with rfl | rfl | rfl <;> decide

theorem witness_NopOnlyAdvances : (0x0001 : Word).extractLsb' 12 4 = 0 ∧ (0x0001 : Word) ≠ 0 := by decide

theorem witness_HaltStopsInPlace : (0x1FFF : Word).extractLsb' 12 4 = 1 ∧ (0x1FFF : Word) ≠ 0x1000 := by decide

theorem witness_MoveLowByte : ((decodeFields 0x30FE).op = 3 ∧ (decodeFields 0x30FE).mode = false) ∧
    ((decodeFields 0x3900).op = 3 ∧ (decodeFields 0x3900).reg1 ≠ 0) ∧
    ((start [(.HL, 0xC0AB)]).reg .HL = 0xC0AB ∧ ((start [(.HL, 0xC0AB)]).reg .HL).extractLsb' 0 8 = (0xAB : Byte)) := by
  decide

theorem witness_MoveHighByte : ((decodeFields 0x40FE).op = 4 ∧ (decodeFields 0x40FE).mode = false) ∧
    ((decodeFields 0x4900).op = 4 ∧ (decodeFields 0x4900).reg1 ≠ 0) := by decide

theorem witness_LoadWord : ((start [(.HL, 0xC000)]).poke 0xC000 0x1234).memRead 0xC000 = 0x1234 ∧
    ((start [(.HL, 0xC000)]).poke 0xC000 0x1234).reg .HL = 0xC000 := by decide

/-- ROM writable with an address in ROM (`pc + 1`), and ROM not writable with the first address above it. -/
theorem witness_StoreWord :
    (let s := start [(.HL, 1)]
     s.mem.wf = true ∧ s.Storable (s.reg .HL) ∧ s.reg .HL = s.pc + 1) ∧
    (let s := startRom [(.HL, 0x8000)]
     s.mem.wf = true ∧ s.Storable (s.reg .HL)) ∧
    (let s := start [(.A, 0x000C), (.HL, 0xC000)]
     s.mem.wf = true ∧ s.params.romWritable = true ∧ s.reg .A = 0x000C ∧ s.reg .HL = 0xC000) := by decide

theorem witness_StoreThenLoad : (start [(.HL, 0xFFFF)]).mem.wf = true ∧
    (start [(.HL, 0xFFFF)]).Storable ((start [(.HL, 0xFFFF)]).reg .HL) := by decide

theorem witness_StoredInstructionRunsNext :
    let s := start [(.HL, 1), (.A, 0x1000)]
    s.mem.wf = true ∧ s.Storable (s.reg .HL) ∧ s.status = .running ∧ s.reg .HL = s.pc + 1 ∧
      s.reg .A = encode .halt := by decide

/-- The last ROM address, for `SW` (both forms reach ROM) and for `PUSH`. -/
theorem witness_ReadOnlyRomFaults :
    let s := (startRom [(.HL, 0x7FFF)]).setSp 0x8000
    s.params.romWritable = false ∧ (s.reg .HL).toNat ≤ 0x7FFF ∧ (zext16 0xFF).toNat ≤ 0x7FFF ∧
      (s.sp - 1).toNat ≤ 0x7FFF := by decide

theorem witness_ArithmeticIdentities : Reg.A ≠ .FLAG ∧ Reg.B ≠ .FLAG ∧ Reg.C ≠ .FLAG ∧ Reg.A ≠ .B ∧ Reg.A ≠ .C ∧
    Reg.C ≠ .B := by decide

theorem witness_JumpIfZero : ((decodeFields 0xC100).op = 0xC ∧ (decodeFields 0xC100).reg1 ≠ 0) ∧
    (State.reset.setPc 4).pc = 4 ∧ (start [(.HL, 0x0200), (.FLAG, 1)]).reg .HL = 0x0200 ∧
    (start [(.HL, 0x0200), (.FLAG, 1)]).flagZ = true := by decide

theorem witness_JumpIfNegative : (decodeFields 0xD700).op = 0xD ∧ (decodeFields 0xD700).reg1 ≠ 0 := by decide

/-- Also `sp = 0`, where the new `sp` wraps. -/
theorem witness_PushEffect : ((decodeFields 0xE900).op = 0xE ∧ (decodeFields 0xE900).reg1 ≠ 0) ∧
    (let s := startRom []
     s.mem.wf = true ∧ s.Storable (s.sp - 1)) ∧
    (let s := (startRom []).setSp 0
     s.mem.wf = true ∧ s.Storable (s.sp - 1)) := by decide

theorem witness_PopEffect : ((decodeFields 0xF800).op = 0xF ∧ (decodeFields 0xF800).mode = true) ∧
    ((decodeFields 0xF001).op = 0xF ∧ (decodeFields 0xF001).imm8 ≠ 0) := by decide

theorem witness_StackLaw :
    let s := State.reset.setSp 1
    s.mem.wf = true ∧ s.Storable (s.sp - 1) ∧ s.Storable (s.sp - 2) := by decide

/-- One instruction of each kind the clauses name. -/
theorem witness_OnlyStackUsesSpAndNoDataUsesPc : State.reset.params.romWritable = true ∧
    (∃ t, exec (.addReg .A .B) State.reset = .next t ∧ isStack (.addReg .A .B) = false ∧ isJump (.addReg .A .B) = false) ∧
    (∃ t, exec (.pop .A) State.reset = .next t ∧ isStack (.pop .A) = true) ∧
    (∃ t, exec .halt State.reset = .next t) ∧ (∃ t, exec (.jmpzReg .B) State.reset = .next t) ∧
    ∃ t, exec (.jmpnImm 9) State.reset = .next t :=
  ⟨rfl, ⟨_, rfl, rfl, rfl⟩, ⟨_, rfl, rfl⟩, ⟨_, rfl⟩, ⟨_, rfl⟩, ⟨_, rfl⟩⟩

/-- An instruction that is not of the ALU, and one that is, with bit 1 and bit 15 among the kept bits. -/
theorem witness_FlagWriters :
    (∃ t, exec (.lwReg .A .B) State.reset = .next t ∧ isAlu (.lwReg .A .B) = false ∧
      destOf (.lwReg .A .B) ≠ some .FLAG ∧ destOf (.lwReg .A .B) ≠ some .C) ∧
    ∃ t, exec (.addReg .A .B) State.reset = .next t ∧ destOf (.addReg .A .B) ≠ some .FLAG ∧
      State.reset.params.aluWritesNegative = false :=
  ⟨⟨_, rfl, rfl, by decide, by decide⟩, ⟨_, rfl, by decide, rfl⟩⟩

theorem witness_InstructionsLeaveTheEngine : ∃ t, exec (.swReg .HL .A) State.reset = .next t := ⟨_, rfl⟩

theorem witness_CanonicalMemoryIsExtensional :
    let m : Memory := [(0, 7), (0xFFFF, 1)]
    m.wf = true ∧ (m.write 0xFFFF 0).wf = true ∧ m.write 0xFFFF 0 = [(0, 7)] := by decide

/-- Both bounds of every region. -/
theorem witness_RegionMap : (regionOf 0x7FFF, regionOf 0x8000, regionOf 0xBFFF, regionOf 0xC000) =
    (.rom, .vram, .vram, .ram) ∧ (regionOf 0xFDFD, regionOf 0xFDFE, regionOf 0xFDFF, regionOf 0xFFFF) =
    (.ram, .keyboardPort, .unnamed, .unnamed) := by decide

/-- The last address that fits, the first beyond ROM, and an image one word too long. -/
theorem witness_ImageLoad : (State.reset.mem.wf = true ∧ 0x7FFF ≤ 0x7FFF ∧ 0x7FFF + [(0x1000 : Word)].length ≤ 0x8000) ∧
    0x7FFF < 0x8000 ∧ (0x7FFF ≤ 0x7FFF ∧ 0x8000 < 0x7FFF + [(0 : Word), 0x1000].length) := by decide

theorem witness_ImageFileRoundTrip : [(0x2805 : Word)].length ≤ 32768 ∧ imageOfFile [0x05, 0x28] = .ok [0x2805] ∧
    ([0, 0, 0] : List Byte).length % 2 = 1 ∧ 65536 < (List.replicate 65537 (0 : Byte)).length :=
  ⟨by decide, by decide, by decide, by rw [List.length_replicate]; decide⟩

theorem witness_DeliverySequence :
    let s := State.reset
    let d := keyboard (some 0x41)
    s.mem.wf = true ∧ s.Storable 0xFDFE ∧ d.port = some 0xFDFE ∧ d.ticked.pending = true ∧
      d.nextPoll.answer = some 0x41 := by decide

/-- A silent device, one that answers nothing, one without a port. -/
theorem witness_NoDeliveryWithoutAByte :
    (Device.mk (some 0xFDFE) false []).ticked.pending = false ∧
      ((keyboard none).ticked.pending = true ∧ (keyboard none).nextPoll.answer = none) ∧
      (Device.mk none false [⟨true, some 1⟩]).port = none := by decide

theorem witness_DevicePhaseDelivers :
    let s := withDevices [keyboard (some 0x41), keyboard (some 0x7F)]
    s.status = .running ∧ s.params.romWritable = true ∧
      s.devices.filterMap Device.delivery = [(0xFDFE, 0x41), (0xFDFE, 0x7F)] := by decide

theorem witness_LoadSeesTheDeliveryOfItsCycle :
    let s := ((withDevices [keyboard (some 0x41)]).setReg .HL 0xFDFE).placeAtPc 0x50A0
    s.Live ∧ s.mem.wf = true ∧ s.params.romWritable = true ∧ s.devices = [keyboard (some 0x41)] ∧
      (keyboard (some 0x41)).delivery = some (0xFDFE, 0x41) ∧ (0xFDFE : Word) ≠ s.pc ∧ s.reg .HL = 0xFDFE ∧
      s.memRead s.pc = encode (.lwReg .A .HL) := by decide

/-- A size that fits exactly and one too small; `.org` at, below and above the position. -/
theorem witness_PaddingAndOrg : (List.replicate 512 (0 : Word)).length ≤ 512 * 1 ∧
    512 * 0 < [(0 : Word)].length ∧ Assembler.orgValue [] ['4'] = .ok 4 ∧ 4 < 5 ∧ 4 ≤ 4 :=
  ⟨by rw [List.length_replicate], by decide, by decide, by decide, by decide⟩

/-- A `.org` and a `@label` line, and whole programs that both passes accept. -/
theorem witness_PassesAgreeOnPositions :
    let sy : Assembler.Symbols := ⟨[(['x'], 3)], []⟩
    (Assembler.lineOne 1 sy (.org ['4']) = .ok (4, sy) ∧ Assembler.lineTwo sy sy.constants 1 (.org ['4']) = .ok [0, 0, 0]) ∧
    (Assembler.lineOne 1 sy (.target ['x']) = .ok (3, sy) ∧
      Assembler.lineTwo sy sy.constants 1 (.target ['x']) = .ok [0x4800, 0x3803]) ∧
    sy.labels.get ['x'] = some 3 ∧
    (Assembler.passOne ['f'] 1 0 ⟨[], []⟩ ([.org ['3']] ++ .label ['x'] :: [.target ['x']]) = .ok ⟨sy, 5⟩ ∧
      Assembler.passTwo ['f'] sy 1 0 [] [.org ['3']] = .ok [0, 0, 0] ∧
      Assembler.assembleLines ['f'] ([.org ['3']] ++ .label ['x'] :: [.target ['x']]) =
        .ok [0, 0, 0, 0x4800, 0x3803]) := by decide

/-- A constant with a name of its own, and one named like a register. -/
theorem witness_ConstantsAreSubstituted :
    let cs : Assembler.Table := [(['X'], 255), (['A'], 0)]
    255 < 256 ∧ cs.get ['X'] = some 255 ∧ cs.get ['A'] = some 0 ∧ cs.get ['B'] = none := by decide

/-- The second of three devices has a port at the last ROM address. -/
theorem witness_ReadOnlyRomPortWriteFaults :
    let d : Device := ⟨some 0x7FFF, false, [⟨true, some 0x41⟩]⟩
    let s : State := { startRom [] with devices := [keyboard (some 0x41)] ++ d :: [keyboard none] }
    s.Live ∧ s.params.romWritable = false ∧ (serviceFrom 0 [keyboard (some 0x41)] s).2.status = .running ∧
      d.port = some 0x7FFF ∧ (0x7FFF : Word).toNat ≤ 0x7FFF ∧ d.ticked.pending = true ∧
      d.nextPoll.answer = some 0x41 := by decide

end Sys2Proof.Tests
end

/-! # The family of 10_state.md: reset, the terminal statuses, and who reads and writes `SP`, `PC` and `FLAG` -/

section
/-! ## Effects: the 27 instructions as eight shared operations

An instruction's effect names what it computes as a function of the registers and of memory alone. That data are read
from nowhere else (10_state.md R31) is then visible in the type, and a fact about all instructions needs eight cases. -/

namespace Sys2Proof.Machine

/-- What executing an instruction does; `pc` and `sp` are no input of the functions. -/
inductive Effect where
  | next
  | stop
  | write (d : Reg) (value : RegFile → Memory → Word)
  | alu (d : Reg) (result : RegFile → Word) (carry : RegFile → Option Bool)
  | jump (taken : RegFile → Bool) (o : Operand)
  | store (o : Operand) (src : Reg)
  | push (o : Operand)
  | pop (d : Reg)

/-- The operand of R153, read from a register file. -/
def Operand.valueIn (f : RegFile) : Operand → Word
  | .reg r => f.get r
  | .imm i => zext16 i

/-- Running an effect, by the model's own operations. -/
def Effect.run : Effect → State → State
  | .next, s => s.advance
  | .stop, s => s.setStatus .halted
  | .write d value, s => (s.setReg d (value s.regs s.mem)).advance
  | .alu d result carry, s => aluWrite d (result s.regs) (carry s.regs) s
  | .jump taken o, s => jumpIf (taken s.regs) o s
  | .store o src, s => storeWord o src s
  | .push o, s => pushValue o s
  | .pop d, s => popInto d s

/-- `ADD` and `ADDC` (R201, R204), the carry-in read from the registers. -/
def Effect.add (d : Reg) (o : Operand) (cin : RegFile → Bool) : Effect :=
  .alu d (fun f => trunc16 (exactSum (f.get d) (o.valueIn f) (cin f)))
    fun f => some (carryOut (exactSum (f.get d) (o.valueIn f) (cin f)))

/-- `SUB` (R202). -/
def Effect.sub (d : Reg) (o : Operand) : Effect :=
  .alu d (fun f => f.get d - o.valueIn f) fun f => some (borrow (f.get d) (o.valueIn f))

/-- The effect of an instruction. -/
def effectOf : Instr → Effect
  | .nop => .next
  | .halt => .stop
  | .mwReg d r => .write d fun f _ => f.get r
  | .mwImm d k => .write d fun _ _ => zext16 k
  | .mwl k => .write .HL fun f _ => (f.get .HL &&& 0xFF00) ||| zext16 k
  | .mwh k => .write .HL fun f _ => (f.get .HL &&& 0x00FF) ||| (zext16 k <<< 8)
  | .lwReg d a => .write d fun f m => m.read (f.get a)
  | .lwImm d k => .write d fun _ m => m.read (zext16 k)
  | .swReg a r => .store (.reg a) r
  | .swImm k r => .store (.imm k) r
  | .addReg d r => .add d (.reg r) fun _ => false
  | .addImm d k => .add d (.imm k) fun _ => false
  | .subReg d r => .sub d (.reg r)
  | .subImm d k => .sub d (.imm k)
  | .andReg d r => .alu d (fun f => f.get d &&& f.get r) fun _ => none
  | .andImm d k => .alu d (fun f => f.get d &&& zext16 k) fun _ => none
  | .addcReg d r => .add d (.reg r) fun f => (f.get .FLAG).getLsbD 2
  | .addcImm d k => .add d (.imm k) fun f => (f.get .FLAG).getLsbD 2
  | .notReg d r => .alu d (fun f => ~~~(f.get r)) fun _ => none
  | .notImm d k => .alu d (fun _ => ~~~(zext16 k)) fun _ => none
  | .jmpzReg r => .jump (fun f => (f.get .FLAG).getLsbD 0) (.reg r)
  | .jmpzImm k => .jump (fun f => (f.get .FLAG).getLsbD 0) (.imm k)
  | .jmpnReg r => .jump (fun f => (f.get .FLAG).getLsbD 1) (.reg r)
  | .jmpnImm k => .jump (fun f => (f.get .FLAG).getLsbD 1) (.imm k)
  | .pushReg r => .push (.reg r)
  | .pushImm k => .push (.imm k)
  | .pop d => .pop d

/-- The tie to the model: an instruction's meaning is its effect run. -/
theorem exec_eq_run_effectOf (i : Instr) (s : State) : exec i s = .next ((effectOf i).run s) := by
  cases i <;> rfl

theorem exec_eq_next_iff {i : Instr} {s t : State} : exec i s = .next t ↔ (effectOf i).run s = t := by
  rw [exec_eq_run_effectOf, Host.Outcome.next.injEq]

/-- The destination of an effect. -/
def Effect.dest : Effect → Option Reg
  | .write d _ | .alu d _ _ | .pop d => some d
  | .next | .stop | .jump _ _ | .store _ _ | .push _ => none

def Effect.isAlu : Effect → Bool
  | .alu _ _ _ => true
  | .next | .stop | .write _ _ | .jump _ _ | .store _ _ | .push _ | .pop _ => false

def Effect.isStack : Effect → Bool
  | .push _ | .pop _ => true
  | .next | .stop | .write _ _ | .alu _ _ _ | .jump _ _ | .store _ _ => false

/-- The effects after which `pc` has made the normal advance whatever the state (R155), ROM being writable. -/
def Effect.advances : Effect → Bool
  | .stop | .jump _ _ => false
  | .next | .write _ _ | .alu _ _ _ | .store _ _ | .push _ | .pop _ => true

theorem effectOf_dest (i : Instr) : (effectOf i).dest = destOf i := by cases i <;> rfl

theorem effectOf_isAlu (i : Instr) : (effectOf i).isAlu = isAlu i := by cases i <;> rfl

theorem effectOf_isStack (i : Instr) : (effectOf i).isStack = isStack i := by cases i <;> rfl

theorem effectOf_advances {i : Instr} (hh : i ≠ .halt) (hj : isJump i = false) : (effectOf i).advances = true := by
  cases i with
  | halt => exact absurd rfl hh
  | jmpzReg _ | jmpzImm _ | jmpnReg _ | jmpnImm _ => cases hj
  | _ => rfl

end Sys2Proof.Machine
end

section
/-! ## What the shared operations read and leave unchanged -/

namespace Sys2Proof.Machine

@[simp] theorem operandValue_setSp (o : Operand) (s : State) (v : Word) :
    operandValue o (s.setSp v) = operandValue o s := by
  cases o <;> rfl

@[simp] theorem operandValue_setPc (o : Operand) (s : State) (v : Word) :
    operandValue o (s.setPc v) = operandValue o s := by
  cases o <;> rfl

/-- A field that neither the store nor the fault changes is as before a write of the bus. -/
theorem busWrite_keeps {α : Type} (field : State → α) {a v : Word} {rest : State → State} {s : State}
    (stored : field (rest (s.poke a v)) = field s) (faulted : field (takeFault (.romWrite a s.pc) s) = field s) :
    field (busWrite a v rest s) = field s := by
  obtain ⟨-, h⟩ | ⟨-, h⟩ := busWrite_cases a v rest s
  · rw [h, stored]
  · rw [h, faulted]

/-! ### With ROM writable, stores store -/

theorem canWrite_of_romWritable {s : State} (h : s.params.romWritable = true) (a : Word) : s.canWrite a = true :=
  (canWrite_iff s a).2 (.inl h)

theorem storeWord_of_romWritable {s : State} (h : s.params.romWritable = true) (o : Operand) (src : Reg) :
    storeWord o src s = (s.poke (operandValue o s) (s.reg src)).advance :=
  busWrite_stores (canWrite_of_romWritable h _) _ _

theorem pushValue_of_romWritable {s : State} (h : s.params.romWritable = true) (o : Operand) :
    pushValue o s = ((s.poke (s.sp - 1) (operandValue o s)).setSp (s.sp - 1)).advance :=
  busWrite_stores (canWrite_of_romWritable h _) _ _

/-! ### The ALU write does not look at `sp` or `pc` -/

theorem State.setReg_setSp (s : State) (r : Reg) (w v : Word) :
    (s.setSp v).setReg r w = (s.setReg r w).setSp v := rfl

theorem setN_setSp (r v : Word) (s : State) : setN r (s.setSp v) = (setN r s).setSp v := by
  by_cases h : s.params.aluWritesNegative = true
  · simp [setN, h, State.setReg_setSp]
  · simp [setN, h]

theorem State.setReg_setPc (s : State) (r : Reg) (w v : Word) :
    (s.setPc v).setReg r w = (s.setReg r w).setPc v := rfl

theorem setN_setPc (r v : Word) (s : State) : setN r (s.setPc v) = (setN r s).setPc v := by
  by_cases h : s.params.aluWritesNegative = true
  · simp [setN, h, State.setReg_setPc]
  · simp [setN, h]

theorem aluWrite_setSp (d : Reg) (r : Word) (carry : Option Bool) (s : State) (v : Word) :
    aluWrite d r carry (s.setSp v) = (aluWrite d r carry s).setSp v := by
  cases carry with
  | none => exact congrArg State.advance (setN_setSp r v (setZ r (s.setReg d r)))
  | some c => exact congrArg State.advance (setN_setSp r v (setC c (setZ r (s.setReg d r))))

theorem aluWrite_pc (d : Reg) (r : Word) (carry : Option Bool) (s : State) :
    (aluWrite d r carry s).pc = s.pc + 1 := by
  obtain ⟨-, -, hpc, -⟩ := aluWrite_effect d r carry s
  exact hpc

theorem aluWrite_setPc (d : Reg) (r : Word) (carry : Option Bool) (s : State) (v : Word) :
    aluWrite d r carry (s.setPc v) = (aluWrite d r carry s).setPc (v + 1) := by
  cases carry with
  | none => exact congrArg State.advance (setN_setPc r v (setZ r (s.setReg d r)))
  | some c => exact congrArg State.advance (setN_setPc r v (setC c (setZ r (s.setReg d r))))

theorem jumpIf_pc (taken : Bool) (o : Operand) (s : State) :
    (jumpIf taken o s).pc = operandValue o s ∨ (jumpIf taken o s).pc = s.pc + 1 := by
  cases taken
  · exact .inr rfl
  · exact .inl rfl

end Sys2Proof.Machine
end

section
/-! ## What every instruction reads and leaves unchanged, by its effect -/

namespace Sys2Proof.Machine

/-- An effect that is not a stack operation commutes with any change of `sp`: it neither reads nor writes it (R31). -/
theorem Effect.run_setSp {e : Effect} {s : State} (hrom : s.params.romWritable = true) (he : e.isStack = false)
    (v : Word) : e.run (s.setSp v) = (e.run s).setSp v := by
  cases e with
  | next | stop | write _ _ => rfl
  | alu d _ _ => exact aluWrite_setSp d _ _ s v
  | jump taken o =>
    simp only [Effect.run, jumpIf, operandValue_setSp, State.setSp_regs]
    split <;> rfl
  | store o src =>
    have hrom' : (s.setSp v).params.romWritable = true := hrom
    simp only [Effect.run, storeWord_of_romWritable hrom, storeWord_of_romWritable hrom', operandValue_setSp]
    rfl
  | push _ | pop _ => cases he

/-- Anything but `pc` comes out the same whatever `pc` was (R31). -/
theorem Effect.run_setPc (e : Effect) {s : State} (hrom : s.params.romWritable = true) (v : Word) :
    (e.run (s.setPc v)).setPc (e.run s).pc = e.run s := by
  have hrom' : (s.setPc v).params.romWritable = true := hrom
  cases e with
  | next | stop | write _ _ | pop _ => rfl
  | alu d result carry =>
    have hpc : (Effect.alu d result carry).run (s.setPc v) = ((Effect.alu d result carry).run s).setPc (v + 1) :=
      aluWrite_setPc d _ _ s v
    rw [hpc]
    rfl
  | jump taken o =>
    simp only [Effect.run, jumpIf, operandValue_setPc, State.setPc_regs]
    split <;> rfl
  | store o src =>
    simp only [Effect.run, storeWord_of_romWritable hrom, storeWord_of_romWritable hrom', operandValue_setPc]
    rfl
  | push o =>
    simp only [Effect.run, pushValue_of_romWritable hrom, pushValue_of_romWritable hrom', operandValue_setPc]
    rfl

/-- The normal advance (R155). -/
theorem Effect.run_pc {e : Effect} {s : State} (hrom : s.params.romWritable = true) (he : e.advances = true) :
    (e.run s).pc = s.pc + 1 := by
  cases e with
  | next | write _ _ | pop _ => rfl
  | alu d _ _ => exact aluWrite_pc d _ _ s
  | store o src => exact congrArg State.pc (storeWord_of_romWritable hrom o src)
  | push o => exact congrArg State.pc (pushValue_of_romWritable hrom o)
  | stop | jump _ _ => cases he

/-- A stack operation moves `sp` by one (R230, R231). -/
theorem Effect.run_sp {e : Effect} {s : State} (hrom : s.params.romWritable = true) (he : e.isStack = true) :
    (e.run s).sp = s.sp - 1 ∨ (e.run s).sp = s.sp + 1 := by
  cases e with
  | push o => exact .inl (congrArg State.sp (pushValue_of_romWritable hrom o))
  | pop d => exact .inr rfl
  | next | stop | write _ _ | alu _ _ _ | jump _ _ | store _ _ => cases he

/-- A register is changed as the destination, or is `FLAG` and changed by an ALU effect (R158). -/
theorem Effect.run_reg {e : Effect} {r : Reg} (hd : e.dest ≠ some r) (hflag : e.isAlu = true → r ≠ .FLAG)
    (s : State) : (e.run s).reg r = s.reg r := by
  have other {d : Reg} (h : some d ≠ some r) : r ≠ d := fun hrd => h (hrd ▸ rfl)
  cases e with
  | next | stop => rfl
  | write d _ => exact (s.setReg_reg d r _).trans (if_neg (other hd))
  | pop d => exact (s.setReg_reg d r _).trans (if_neg (other hd))
  | alu d _ _ =>
    obtain ⟨hreg, -⟩ := aluWrite_effect d _ _ s
    exact (hreg r (hflag rfl)).trans (if_neg (other hd))
  | jump taken o => exact (apply_ite (State.reg · r) _ _ _).trans (ite_self _)
  | store _ _ => exact busWrite_keeps (State.reg · r) rfl rfl
  | push _ => exact busWrite_keeps (State.reg · r) rfl rfl

/-- In `FLAG`, when it is not the destination, every bit but Zero, Carry and (under its parameter) Negative is kept
(R25, R156, R157). -/
theorem Effect.run_flagBit {e : Effect} {s : State} {n : Nat} (hd : e.dest ≠ some .FLAG) (hn : n < 16) (hz : n ≠ 0)
    (hc : n ≠ 2) (hneg : n = 1 → s.params.aluWritesNegative = false) :
    ((e.run s).reg .FLAG).getLsbD n = (s.reg .FLAG).getLsbD n := by
  cases he : e.isAlu with
  | false => rw [Effect.run_reg hd (by simp [he])]
  | true =>
    cases e with
    | alu d _ _ =>
      obtain ⟨-, hbits, -⟩ := aluWrite_effect d _ _ s
      have hd' : d ≠ .FLAG := fun h => hd (h ▸ rfl)
      rw [Effect.run, hbits n hn]
      simp +contextual [hz, hc, hd', hneg]
    | next | stop | write _ _ | jump _ _ | store _ _ | push _ | pop _ => cases he

/-- No instruction changes the devices, the cycle count, the run loop's place or the parameters. -/
theorem Effect.run_engine (e : Effect) (s : State) :
    (e.run s).devices = s.devices ∧ (e.run s).cycles = s.cycles ∧ (e.run s).phase = s.phase ∧
      (e.run s).params = s.params := by
  cases e with
  | next | stop | write _ _ | pop _ => exact ⟨rfl, rfl, rfl, rfl⟩
  | alu d _ _ =>
    obtain ⟨-, -, -, -, -, -, hdev, hcyc, hph, -, hpar⟩ := aluWrite_effect d _ _ s
    exact ⟨hdev, hcyc, hph, hpar⟩
  | jump taken o =>
    simp only [Effect.run, jumpIf]
    split <;> exact ⟨rfl, rfl, rfl, rfl⟩
  | store _ _ =>
    exact ⟨busWrite_keeps State.devices rfl rfl, busWrite_keeps State.cycles rfl rfl,
      busWrite_keeps State.phase rfl rfl, busWrite_keeps State.params rfl rfl⟩
  | push _ =>
    exact ⟨busWrite_keeps State.devices rfl rfl, busWrite_keeps State.cycles rfl rfl,
      busWrite_keeps State.phase rfl rfl, busWrite_keeps State.params rfl rfl⟩

end Sys2Proof.Machine
end

section
/-! ## The parameters, the devices' ports and the cycle count along a cycle -/

namespace Sys2Proof.Machine

/-- The parameters, the number, order and ports of the devices, and the cycle count are as before (10_state.md R35). -/
def KeepsConfiguration (s t : State) : Prop :=
  t.params = s.params ∧ t.devices.map Device.port = s.devices.map Device.port ∧ t.cycles = s.cycles

theorem KeepsConfiguration.trans {s t u : State} (hst : KeepsConfiguration s t) (htu : KeepsConfiguration t u) :
    KeepsConfiguration s u := by
  obtain ⟨hp, hd, hc⟩ := hst
  obtain ⟨hp', hd', hc'⟩ := htu
  exact ⟨hp'.trans hp, hd'.trans hd, hc'.trans hc⟩

theorem exec_keepsConfiguration {i : Instr} {s t : State} (h : exec i s = .next t) : KeepsConfiguration s t := by
  obtain rfl := exec_eq_next_iff.1 h
  obtain ⟨hdev, hcyc, -, hpar⟩ := (effectOf i).run_engine s
  exact ⟨hpar, congrArg _ hdev, hcyc⟩

theorem cpuStep_keepsConfiguration {s t : State} (h : cpuStep s = .next t) : KeepsConfiguration s t := by
  obtain ⟨-, rfl⟩ | ⟨i, -, -, hi⟩ | ⟨e, -, -, rfl⟩ := cpuStep_cases h
  · exact ⟨rfl, rfl, rfl⟩
  · exact exec_keepsConfiguration hi
  · exact ⟨rfl, rfl, rfl⟩

theorem serviceDevice_keeps (n : Nat) (d : Device) (s : State) :
    (serviceDevice n d s).1.port = d.port ∧ (serviceDevice n d s).2.params = s.params ∧
      (serviceDevice n d s).2.cycles = s.cycles := by
  obtain ⟨-, h⟩ | ⟨-, -, h⟩ | ⟨p, b, -, -, -, h⟩ | ⟨p, b, -, -, -, h⟩ := serviceDevice_cases n d s
  all_goals rw [h]; exact ⟨rfl, rfl, rfl⟩

theorem serviceFrom_keeps (ds : List Device) (n : Nat) (s : State) :
    (serviceFrom n ds s).1.map Device.port = ds.map Device.port ∧ (serviceFrom n ds s).2.params = s.params ∧
      (serviceFrom n ds s).2.cycles = s.cycles := by
  induction ds generalizing n s with
  | nil => exact ⟨rfl, rfl, rfl⟩
  | cons d ds ih =>
    by_cases h : s.status = .running
    · obtain ⟨hport, hpar, hcyc⟩ := serviceDevice_keeps n d s
      obtain ⟨hports, hpar', hcyc'⟩ := ih (n + 1) (serviceDevice n d s).2
      rw [serviceFrom_running n d ds s h]
      exact ⟨congrArg₂ List.cons hport hports, hpar'.trans hpar, hcyc'.trans hcyc⟩
    · rw [serviceFrom_stopped n (d :: ds) s h]
      exact ⟨rfl, rfl, rfl⟩

theorem devicePhase_keepsConfiguration (s : State) : KeepsConfiguration s (devicePhase s) := by
  obtain ⟨hports, hpar, hcyc⟩ := serviceFrom_keeps s.devices 0 s
  exact ⟨hpar, hports, hcyc⟩

end Sys2Proof.Machine
end

section
/-! ## Stopped runs -/

namespace Sys2Proof.Machine

/-- What `Halted` and `Faulted` freeze (R33, R241, R253). -/
def Frozen (s t : State) : Prop := KeepsCpuAndMemory s t ∧ t.status = s.status ∧ t.cycles = s.cycles

theorem Frozen.refl (s : State) : Frozen s s := ⟨⟨rfl, rfl, rfl, rfl⟩, rfl, rfl⟩

theorem Frozen.trans {s t u : State} (hst : Frozen s t) (htu : Frozen t u) : Frozen s u := by
  obtain ⟨⟨hregs, hpc, hsp, hmem⟩, hstatus, hcycles⟩ := hst
  obtain ⟨⟨hregs', hpc', hsp', hmem'⟩, hstatus', hcycles'⟩ := htu
  exact ⟨⟨hregs'.trans hregs, hpc'.trans hpc, hsp'.trans hsp, hmem'.trans hmem⟩, hstatus'.trans hstatus,
    hcycles'.trans hcycles⟩

/-- The only step a stopped machine takes is the exit of the run loop, and that freezes it too. -/
theorem step_frozen_of_stopped {s : State} (h : s.status ≠ .running) : ∃ t, step s = .next t ∧ Frozen s t := by
  have hguard : ¬ s.mayCycle = true := fun hc => h ((mayCycle_iff s).1 hc).1
  cases hp : s.phase with
  | ended => exact ⟨s, by simp only [step, runStep, hp], .refl s⟩
  | looping =>
    exact ⟨shutdownAll s, by simp only [step, runStep, hp, if_neg hguard], ⟨rfl, rfl, rfl, rfl⟩, rfl, rfl⟩

end Sys2Proof.Machine
end

section
/-! ## The obligations -/

open Sys2Proof Sys2Proof.Machine

/-- Settles O19, by induction on the number of steps: a step of a stopped machine freezes it and leaves it stopped. -/
theorem stoppedRunIsFrozen : Obligations.StoppedRunIsFrozen := by
  intro n
  induction n with
  | zero => exact fun s _ => ⟨s, core_run_zero s, Frozen.refl s⟩
  | succ n ih =>
    intro s hs
    obtain ⟨t, hstep, hst⟩ := step_frozen_of_stopped hs
    have ht : t.status ≠ .running := hst.2.1 ▸ hs
    obtain ⟨u, hrun, htu⟩ := ih t ht
    exact ⟨u, (core_run_succ n hstep).trans hrun, hst.trans htu⟩

/-- Settles O20, by the three ways of a step: only a cycle counts, and its device phase and CPU step keep the rest. -/
theorem stepKeepsTheConfiguration : Obligations.StepKeepsTheConfiguration := by
  intro s t h
  obtain ⟨hended, rfl⟩ | ⟨u, hlive, hu, rfl⟩ | ⟨-, hguard, rfl⟩ := step_cases h
  · have hlive : ¬ t.Live := fun hl => RunPhase.noConfusion (hended.symm.trans hl.1)
    exact ⟨rfl, rfl, by rw [if_neg hlive]; rfl⟩
  · obtain ⟨hpar, hports, hcyc⟩ := (devicePhase_keepsConfiguration s).trans (cpuStep_keepsConfiguration hu)
    exact ⟨hpar, hports, by rw [if_pos hlive, State.countCycle_cycles, hcyc]⟩
  · have hlive : ¬ s.Live := fun hl => hguard hl.2
    exact ⟨rfl, rfl, by rw [if_neg hlive]; rfl⟩

/-- Settles O45, by the instruction's effect, whose functions take neither `sp` nor `pc`. That `sp` stays is the
commuting with a change of `sp`, for the value `sp` has. -/
theorem onlyStackUsesSpAndNoDataUsesPc : Obligations.OnlyStackUsesSpAndNoDataUsesPc := by
  intro i s t hrom h
  obtain rfl := exec_eq_next_iff.1 h
  have target {taken : RegFile → Bool} {o : Operand} (he : effectOf i = .jump taken o) :
      ((effectOf i).run s).pc = operandValue o s ∨ ((effectOf i).run s).pc = s.pc + 1 := by
    rw [he]
    exact jumpIf_pc _ o s
  refine ⟨fun hi => ?_, fun hi => ?_, ?_, fun hh hj => ?_, ?_, ?_, fun v => ?_⟩
  · have hcomm := Effect.run_setSp hrom ((effectOf_isStack i).trans hi)
    have hsp := congrArg State.sp (hcomm s.sp)
    exact ⟨hsp, fun v => exec_eq_next_iff.2 (hcomm v)⟩
  · exact Effect.run_sp hrom ((effectOf_isStack i).trans hi)
  · rintro rfl
    rfl
  · exact Effect.run_pc hrom (effectOf_advances hh hj)
  · rintro r (rfl | rfl) <;> exact target rfl
  · rintro k (rfl | rfl) <;> exact target rfl
  · exact ⟨_, exec_eq_run_effectOf i _, Effect.run_setPc _ hrom v⟩

/-- Settles O46, by the registers the instruction's effect writes; the bits of `FLAG` are those of the ALU write. -/
theorem flagWriters : Obligations.FlagWriters := by
  intro i s t h
  obtain rfl := exec_eq_next_iff.1 h
  rw [← effectOf_dest, ← effectOf_isAlu]
  refine ⟨fun r hr hd => ?_, fun ha hd => ?_, fun hd n hn hz hc hneg => ?_⟩
  · exact Effect.run_reg hd (fun _ => hr) s
  · exact Effect.run_reg hd (by simp [ha]) s
  · exact Effect.run_flagBit hd hn hz hc hneg

/-- Settles O13: the values of R37 and of the decisions D11 and D12, field by field of the reset state. -/
theorem resetState : Obligations.ResetState := by
  refine ⟨rfl, rfl, rfl, rfl, rfl, fun r => ?_, Memory.read_nil, rfl⟩
  cases r <;> rfl

/-- Settles O14: nothing is in memory, counted, registered or put out at reset, and the loop has not ended. -/
theorem resetSatisfiesInvariants : Obligations.ResetSatisfiesInvariants := by
  have inv : State.reset.Inv := ⟨reset_mem_wf, Nat.zero_le _, fun _ d hd => absurd hd List.not_mem_nil⟩
  have outputs : State.reset.OutputsInOrder := ⟨rfl, fun _ => rfl, fun hended => RunPhase.noConfusion hended⟩
  exact ⟨inv, outputs⟩

end

/-! # The family of 20_memory.md: the array of words, stores into the instruction stream, ROM, and the image -/

section
/-! ## Memory: the canonical form determines the data -/

namespace Sys2Proof.Machine

theorem Memory.wfFrom_cons (lo k : Nat) (v : Word) (m : Memory) :
    Memory.wfFrom lo ((k, v) :: m) = true ↔
      lo ≤ k ∧ k < Config.memWords ∧ v ≠ memFill ∧ Memory.wfFrom (k + 1) m = true := by
  simp [Memory.wfFrom, and_assoc]

/-- Where a canonical list that reads like one with first key `k` may start: at `k` it has to hold a word other than
`memFill`. -/
theorem Memory.start_le_head {m n : Memory} {lo j k : Nat} {v : Word} (hm : Memory.wfFrom lo ((k, v) :: m) = true)
    (hn : Memory.wfFrom j n = true)
    (h : ∀ c < Config.memWords, Memory.lookup ((k, v) :: m) c = Memory.lookup n c) : j ≤ k := by
  obtain ⟨-, hk, hv, -⟩ := (wfFrom_cons lo k v m).1 hm
  by_contra hlt
  have hread := h k hk
  rw [Memory.lookup_below hn (Nat.lt_of_not_le hlt), Memory.lookup, if_pos rfl] at hread
  exact hv hread

theorem Memory.eq_of_lookup {m n : Memory} {lo : Nat} (hm : Memory.wfFrom lo m = true)
    (hn : Memory.wfFrom lo n = true) (h : ∀ c < Config.memWords, Memory.lookup m c = Memory.lookup n c) : m = n := by
  induction m generalizing lo n with
  | nil =>
    cases n with
    | nil => rfl
    | cons kv' n =>
      obtain ⟨k', v'⟩ := kv'
      exact absurd (start_le_head (j := k' + 1) hn rfl fun c hc => (h c hc).symm) (Nat.not_succ_le_self k')
  | cons kv m ih =>
    obtain ⟨k, v⟩ := kv
    cases n with
    | nil => exact absurd (start_le_head (j := k + 1) hm rfl h) (Nat.not_succ_le_self k)
    | cons kv' n =>
      obtain ⟨k', v'⟩ := kv'
      obtain ⟨-, hk, hv, hm'⟩ := (wfFrom_cons lo k v m).1 hm
      obtain ⟨-, hk', hv', hn'⟩ := (wfFrom_cons lo k' v' n).1 hn
      have hle : k' ≤ k := start_le_head hm ((wfFrom_cons k' k' v' n).2 ⟨le_rfl, hk', hv', hn'⟩) h
      have hge : k ≤ k' :=
        start_le_head hn ((wfFrom_cons k k v m).2 ⟨le_rfl, hk, hv, hm'⟩) fun c hc => (h c hc).symm
      obtain rfl := Nat.le_antisymm hge hle
      have heads : v = v' := by simpa [Memory.lookup] using h k hk
      have tails : m = n := ih hm' hn' fun c hc => by
        rcases Nat.lt_or_ge k c with hkc | hkc
        · simpa [Memory.lookup, hkc.ne] using h c hc
        · rw [Memory.lookup_below hm' (Nat.lt_succ_of_le hkc), Memory.lookup_below hn' (Nat.lt_succ_of_le hkc)]
      rw [heads, tails]

theorem toNat_ofNat_address {a : Nat} (h : a < Config.memWords) : (BitVec.ofNat 16 a).toNat = a :=
  (BitVec.toNat_ofNat a 16).trans (Nat.mod_eq_of_lt h)

theorem Memory.eq_of_read {m n : Memory} (hm : m.wf = true) (hn : n.wf = true) (h : ∀ a, m.read a = n.read a) :
    m = n := by
  refine Memory.eq_of_lookup hm hn fun c hc => ?_
  have hread := h (BitVec.ofNat 16 c)
  rwa [Memory.read, Memory.read, toNat_ofNat_address hc] at hread

theorem Memory.write_read {m : Memory} (h : m.wf = true) (a : Word) : m.write a (m.read a) = m := by
  refine Memory.eq_of_read (Memory.wf_write h _ _) h fun c => ?_
  rw [Memory.read_write h]
  split
  · next hc => rw [hc]
  · rfl

theorem Memory.write_write {m : Memory} (h : m.wf = true) (a u v : Word) :
    (m.write a u).write a v = m.write a v := by
  have hu := Memory.wf_write h a u
  refine Memory.eq_of_read (Memory.wf_write hu _ _) (Memory.wf_write h _ _) fun c => ?_
  rw [Memory.read_write hu, Memory.read_write h, Memory.read_write h]
  split <;> rfl

end Sys2Proof.Machine
end

section
/-! ## Loads and stores: a store that stores, and one that a strict ROM refuses -/

namespace Sys2Proof.Machine

theorem storeWord_of_storable {s : State} {o : Operand} (h : s.Storable (operandValue o s)) (src : Reg) :
    storeWord o src s = (s.poke (operandValue o s) (s.reg src)).advance :=
  busWrite_stores ((canWrite_iff s _).2 h) _ _

theorem loadWord_reg (d : Reg) (o : Operand) (s : State) : (loadWord d o s).reg d = s.memRead (operandValue o s) :=
  (s.setReg_reg d d _).trans (if_pos rfl)

theorem canWrite_of_strictRom {s : State} {a : Word} (h : s.params.romWritable = false) (ha : a.toNat ≤ 0x7FFF) :
    s.canWrite a = false := by
  rw [← Bool.not_eq_true, canWrite_iff]
  rintro (hrom | hram)
  · exact Bool.noConfusion (h.symm.trans hrom)
  · omega

/-- A store to a ROM that is not writable is the fault, whatever would have followed it (R65). -/
theorem busWrite_of_strictRom {s : State} {a : Word} (h : s.params.romWritable = false) (ha : a.toNat ≤ 0x7FFF)
    (v : Word) (rest : State → State) : busWrite a v rest s = takeFault (.romWrite a s.pc) s := by
  simp [busWrite, canWrite_of_strictRom h ha]

end Sys2Proof.Machine
end

section
/-! ## Decoding the word of an instruction (30_encoding.md R102, R106, R107) -/

namespace Sys2Proof

theorem decodeFields_encodeRegFields (op : BitVec 4) (reg1 r : BitVec 3) :
    decodeFields (encodeRegFields op reg1 r) = ⟨op, false, reg1, r, BitVec.ofNat 8 (r.toNat * 32)⟩ := by
  have hop := op.isLt; have hreg1 := reg1.isLt; have hr := r.isLt
  simp only [decodeFields, Fields.mk.injEq, modeBit_eq, decide_eq_false_iff_not, ← BitVec.toNat_inj, extract_toNat,
    encodeRegFields_toNat, BitVec.toNat_ofNat]
  omega

theorem decodeFields_encodeImmFields (op : BitVec 4) (reg1 : BitVec 3) (i : Byte) :
    decodeFields (encodeImmFields op reg1 i) = ⟨op, true, reg1, i.extractLsb' 5 3, i⟩ := by
  have hop := op.isLt; have hreg1 := reg1.isLt; have hi := i.isLt
  simp only [decodeFields, Fields.mk.injEq, modeBit_eq, decide_eq_true_eq, ← BitVec.toNat_inj, extract_toNat,
    encodeImmFields_toNat, BitVec.extractLsb'_toNat, Nat.shiftRight_eq_div_pow]
  omega

/-- The bits below `reg2`, unused in a register form. -/
theorem lowBits_encodeRegFields (op : BitVec 4) (reg1 r : BitVec 3) :
    (encodeRegFields op reg1 r).extractLsb' 0 5 = 0 := by
  simp only [← BitVec.toNat_inj, extract_toNat, encodeRegFields_toNat, BitVec.ofNat_eq_ofNat,
    BitVec.toNat_ofNat]
  omega

theorem instrOfFields_decodeFields_encode (i : Instr) : instrOfFields (decodeFields (encode i)) = i := by
  cases i <;>
    simp [encode, decodeFields_encodeRegFields, decodeFields_encodeImmFields, instrOfFields]

theorem wellFormed_encode (i : Instr) : wellFormed (encode i) = true := by
  cases i with
  | nop | halt => rfl
  | _ =>
    simp [encode, wellFormed, decodeFields_encodeRegFields, decodeFields_encodeImmFields, lowBits_encodeRegFields]

theorem decode_encode (policy : DecodePolicy) (i : Instr) : decode policy (encode i) = .ok i := by
  cases policy <;> simp [decode, wellFormed_encode, instrOfFields_decodeFields_encode]

end Sys2Proof
end

section
/-! ## The CPU step, by what it fetches and where it is stopped -/

namespace Sys2Proof.Machine

/-- The CPU executes the instruction whose word it fetches, under either policy. -/
theorem cpuStep_of_fetch_encode {s : State} {i : Instr} (hrun : s.status = .running) (h : fetch s = encode i) :
    cpuStep s = exec i s := by
  simp only [cpuStep, hrun, h, decode_encode]

theorem cpuStep_of_stopped {s : State} (h : s.status ≠ .running) : cpuStep s = .next s := by
  cases hs : s.status with
  | running => exact absurd hs h
  | halted | faulted => simp only [cpuStep, hs]

theorem fetch_placeAtPc {s : State} (h : s.mem.wf = true) (w : Word) : fetch (s.placeAtPc w) = w :=
  (Memory.read_write h s.pc w s.pc).trans (if_pos rfl)

/-- An instruction placed at `pc` is the one a running CPU executes. -/
theorem cpuStep_placeAtPc {s : State} (h : s.mem.wf = true) (hrun : s.status = .running) (i : Instr) :
    cpuStep (s.placeAtPc (encode i)) = exec i (s.placeAtPc (encode i)) :=
  cpuStep_of_fetch_encode hrun (fetch_placeAtPc h _)

end Sys2Proof.Machine
end

section
/-! ## Loading an image, and its file (20_memory.md R70, R79, R80) -/

namespace Sys2Proof.Machine

theorem read_copyImage_outside {ws : List Word} {a : Nat} {m : Memory} {c : Word} (hm : m.wf = true)
    (hfit : a + ws.length ≤ Config.memWords) (hc : c.toNat < a ∨ a + ws.length ≤ c.toNat) :
    (copyImage a ws m).read c = m.read c := by
  induction ws generalizing a m with
  | nil => rfl
  | cons w ws ih =>
    rw [List.length_cons] at hfit hc
    have hne : c ≠ BitVec.ofNat 16 a := by
      rintro rfl
      rw [toNat_ofNat_address (by omega)] at hc
      omega
    rw [copyImage, ih (Memory.wf_write hm _ _) (by omega) (by omega), Memory.read_write hm, if_neg hne]

theorem read_copyImage_inside {ws : List Word} {a k : Nat} {m : Memory} (hm : m.wf = true)
    (hfit : a + ws.length ≤ Config.memWords) (hk : k < ws.length) :
    (copyImage a ws m).read (BitVec.ofNat 16 (a + k)) = ws[k] := by
  induction ws generalizing a k m with
  | nil => exact absurd hk (Nat.not_lt_zero k)
  | cons w ws ih =>
    have hm' := Memory.wf_write hm (BitVec.ofNat 16 a) w
    rw [List.length_cons] at hfit hk
    cases k with
    | zero =>
      have hbelow : (BitVec.ofNat 16 a).toNat < a + 1 := by rw [toNat_ofNat_address (by omega)]; omega
      have hrest : a + 1 + ws.length ≤ Config.memWords := by omega
      exact (read_copyImage_outside hm' hrest (.inl hbelow)).trans ((Memory.read_write hm _ _ _).trans (if_pos rfl))
    | succ k =>
      rw [copyImage, ← Nat.add_assoc, Nat.add_right_comm, ih hm' (by omega) (by omega)]
      rfl

theorem loadImage_of_fits {image : List Word} {addr : Nat} (ha : addr ≤ 0x7FFF) (hfit : addr + image.length ≤ 0x8000)
    (s : State) : loadImage image addr s = .ok { s with mem := copyImage addr image s.mem } :=
  (if_neg (Nat.not_lt.2 ha)).trans (if_neg (Nat.not_lt.2 hfit))

theorem loadImage_beyondRom {addr : Nat} (ha : 0x7FFF < addr) (image : List Word) (s : State) :
    loadImage image addr s = .error .loadAddrBeyondRom :=
  if_pos ha

theorem loadImage_leavesRom {image : List Word} {addr : Nat} (ha : addr ≤ 0x7FFF)
    (hlong : 0x8000 < addr + image.length) (s : State) : loadImage image addr s = .error .imageLeavesRom :=
  (if_neg (Nat.not_lt.2 ha)).trans (if_pos hlong)

theorem wordOfBytes_bytes (w : Word) : wordOfBytes (w.extractLsb' 0 8) (w.extractLsb' 8 8) = w :=
  (BitVec.extractLsb'_append_extractLsb'_eq_extractLsb' rfl).trans BitVec.extractLsb'_eq_self

theorem bytesOfWord_wordOfBytes (lo hi : Byte) : bytesOfWord (wordOfBytes lo hi) = [lo, hi] := by
  have hlo : (hi ++ lo).extractLsb' 0 8 = lo := BitVec.extractLsb'_append_eq_right
  have hhi : (hi ++ lo).extractLsb' 8 8 = hi := BitVec.extractLsb'_append_eq_left
  rw [bytesOfWord, wordOfBytes, hlo, hhi]

theorem length_flatMap_bytesOfWord (ws : List Word) : (ws.flatMap bytesOfWord).length = ws.length * 2 := by
  simp [bytesOfWord, List.length_flatMap]

theorem wordsOfBytes_flatMap_bytesOfWord (ws : List Word) : wordsOfBytes (ws.flatMap bytesOfWord) = some ws := by
  induction ws with
  | nil => rfl
  | cons w ws ih =>
    simp only [List.flatMap_cons, bytesOfWord, List.cons_append, List.nil_append, wordsOfBytes, ih, wordOfBytes_bytes,
      Option.map_some]

theorem flatMap_bytesOfWord_of_wordsOfBytes {bytes : List Byte} {ws : List Word} (h : wordsOfBytes bytes = some ws) :
    ws.flatMap bytesOfWord = bytes := by
  induction bytes using wordsOfBytes.induct generalizing ws with
  | case1 => cases h; rfl
  | case2 b => cases h
  | case3 lo hi rest ih =>
    obtain ⟨ws', hrest, rfl⟩ := Option.map_eq_some_iff.1 h
    rw [List.flatMap_cons, bytesOfWord_wordOfBytes, ih hrest]
    rfl

theorem wordsOfBytes_of_odd {bytes : List Byte} (h : bytes.length % 2 = 1) : wordsOfBytes bytes = none := by
  rw [Option.eq_none_iff_forall_ne_some]
  rintro ws hws
  rw [← flatMap_bytesOfWord_of_wordsOfBytes hws, length_flatMap_bytesOfWord] at h
  omega

theorem imageOfFile_of_short {bytes : List Byte} (h : bytes.length ≤ 65536) :
    imageOfFile bytes = (wordsOfBytes bytes).elim (.error .oddByteCount) .ok := by
  rw [imageOfFile, if_neg (Nat.not_lt.2 h)]
  cases wordsOfBytes bytes <;> rfl

theorem imageOfFile_of_long {bytes : List Byte} (h : 65536 < bytes.length) :
    imageOfFile bytes = .error .fileTooLong := if_pos h

theorem wordsOfBytes_of_imageOfFile {bytes : List Byte} {ws : List Word} (h : imageOfFile bytes = .ok ws) :
    wordsOfBytes bytes = some ws := by
  obtain hlong | hshort := Nat.lt_or_ge 65536 bytes.length
  · cases (imageOfFile_of_long hlong).symm.trans h
  · rw [imageOfFile_of_short hshort] at h
    cases hws : wordsOfBytes bytes with
    | none => simp [hws] at h
    | some ws' => simpa [hws] using h

end Sys2Proof.Machine
end

section
/-! ## A device's port write that a strict ROM refuses (20_memory.md R65; 60_exceptions.md R241, R247) -/

namespace Sys2Proof.Machine

theorem serviceDevice_of_strictRom {d : Device} {p : Word} {b : Byte} {s : State} (hrom : s.params.romWritable = false)
    (hport : d.port = some p) (hp : p.toNat ≤ 0x7FFF) (hpend : d.ticked.pending = true)
    (hans : d.nextPoll.answer = some b) (n : Nat) :
    serviceDevice n d s =
      (d.ticked, takeFault (.romWrite p s.pc) ((s.emit (.tick n)).emit (.trySend n (some b)))) := by
  have hdel : d.delivery = some (p, b) := by simp [Device.delivery, hpend, hans, hport]
  have hstrict : s.canWrite p = false := canWrite_of_strictRom hrom hp
  obtain ⟨hno, -⟩ | ⟨-, hnone, -⟩ | ⟨p', b', -, hdel', hw, -⟩ | ⟨p', b', -, hdel', -, h⟩ := serviceDevice_cases n d s
  · exact absurd hpend (by simp [hno])
  · exact absurd hdel (by simp [hnone])
  · cases hdel.symm.trans hdel'
    exact absurd hw (by simp [hstrict])
  · cases hdel.symm.trans hdel'
    exact h

theorem serviceDevice_phase (n : Nat) (d : Device) (s : State) : (serviceDevice n d s).2.phase = s.phase := by
  obtain ⟨-, h⟩ | ⟨-, -, h⟩ | ⟨p, b, -, -, -, h⟩ | ⟨p, b, -, -, -, h⟩ := serviceDevice_cases n d s
  all_goals rw [h]; rfl

/-- What the service of every device keeps, the whole phase keeps. -/
theorem serviceFrom_keeps_field {α : Type} (field : State → α)
    (h : ∀ n d s, field (serviceDevice n d s).2 = field s) (ds : List Device) (n : Nat) (s : State) :
    field (serviceFrom n ds s).2 = field s := by
  induction ds generalizing n s with
  | nil => rfl
  | cons d ds ih =>
    by_cases hrun : s.status = .running
    · rw [serviceFrom_running n d ds s hrun]
      exact (ih (n + 1) _).trans (h n d s)
    · rw [serviceFrom_stopped n (d :: ds) s hrun]

/-- Where the service of a device stops the CPU, the devices after it are left as they are. -/
theorem serviceFrom_cons_of_stops {n : Nat} {d d' : Device} {s s' : State} (h : s.status = .running)
    (hone : serviceDevice n d s = (d', s')) (hs' : s'.status ≠ .running) (after : List Device) :
    serviceFrom n (d :: after) s = (d' :: after, s') := by
  rw [serviceFrom_running n d after s h, hone, serviceFrom_stopped (n + 1) after s' hs']

/-- The device phase with such a device registered: its fault is the last thing that happens in the phase. -/
theorem devicePhase_of_strictRom {s : State} {before after : List Device} {d : Device} {p : Word} {b : Byte}
    (hrom : s.params.romWritable = false) (hdev : s.devices = before ++ d :: after)
    (hrun : (serviceFrom 0 before s).2.status = .running) (hport : d.port = some p) (hp : p.toNat ≤ 0x7FFF)
    (hpend : d.ticked.pending = true) (hans : d.nextPoll.answer = some b) :
    devicePhase s =
      (takeFault (.romWrite p (serviceFrom 0 before s).2.pc)
        (((serviceFrom 0 before s).2.emit (.tick before.length)).emit (.trySend before.length (some b)))).setDevices
        ((serviceFrom 0 before s).1 ++ d.ticked :: after) := by
  obtain ⟨-, hparams, -⟩ := serviceFrom_keeps before 0 s
  have hone := serviceDevice_of_strictRom (hparams ▸ hrom) hport hp hpend hans before.length
  have hrest := serviceFrom_cons_of_stops hrun hone (by simp) after
  rw [devicePhase, hdev, serviceFrom_append, Nat.zero_add, hrest]

/-- A live state whose device phase stops the CPU counts the cycle and executes nothing. -/
theorem step_of_devicePhase_stops {s : State} (hlive : s.Live) (h : (devicePhase s).status ≠ .running) :
    step s = .next (devicePhase s).countCycle := by
  rw [step_live hlive, cycle, cpuStep_of_stopped h]
  rfl

end Sys2Proof.Machine
end

section
/-! ## The obligations of the family -/

open Sys2Proof Sys2Proof.Machine

/-- Settles O30: the store writes the word, and the load reads the memory it leaves (R62). -/
theorem storeThenLoad : Obligations.StoreThenLoad := by
  intro s a src d b hwf hstore
  refine ⟨storeWord (.reg a) src s, loadWord d (.reg b) (storeWord (.reg a) src s), rfl, rfl, ?_⟩
  rw [storeWord_of_storable hstore, loadWord_reg]
  exact Memory.read_write hwf _ _ _

/-- Settles O31: both fetches read what was written there last, and the word of an instruction decodes to it under
either policy. -/
theorem storedInstructionRunsNext : Obligations.StoredInstructionRunsNext := by
  intro s a src i hwf hstore hrun ha hsrc
  have hstep : cpuStep (s.placeAtPc (encode (.swReg a src))) =
      .next (storeWord (.reg a) src (s.placeAtPc (encode (.swReg a src)))) := cpuStep_placeAtPc hwf hrun _
  have hstores : storeWord (.reg a) src (s.placeAtPc (encode (.swReg a src))) =
      ((s.placeAtPc (encode (.swReg a src))).poke (s.reg a) (s.reg src)).advance := storeWord_of_storable hstore src
  refine ⟨_, hstep.trans (congrArg _ hstores), rfl, cpuStep_of_fetch_encode hrun ?_⟩
  calc ((s.placeAtPc (encode (.swReg a src))).mem.write (s.reg a) (s.reg src)).read (s.pc + 1)
      = s.reg src := (Memory.read_write (State.poke_wf hwf _ _) _ _ _).trans (if_pos ha.symm)
    _ = encode i := hsrc

/-- Settles O32: `SW` and `PUSH` are one write of the bus, which a strict ROM answers with the fault. -/
theorem readOnlyRomFaults : Obligations.ReadOnlyRomFaults := by
  intro s hrom
  have faults {a v : Word} {rest : State → State} (ha : a.toNat ≤ 0x7FFF) :
      (busWrite a v rest s).status = .faulted ∧ KeepsCpuAndMemory s (busWrite a v rest s) ∧
        (busWrite a v rest s).events = s.events ++ [.dump (.romWrite a s.pc) s.dump] := by
    rw [busWrite_of_strictRom hrom ha]
    exact ⟨rfl, ⟨rfl, rfl, rfl, rfl⟩, rfl⟩
  refine ⟨fun src => ⟨fun a ha => ⟨_, rfl, faults ha⟩, fun i ha => ⟨_, rfl, faults ha⟩⟩, fun ha => ?_⟩
  exact ⟨fun r => ⟨_, rfl, faults ha⟩, fun i => ⟨_, rfl, faults ha⟩⟩

/-- Settles O48, by the canonical form being determined by what is read, and by the rule for a read after a write. -/
theorem canonicalMemoryIsExtensional : Obligations.CanonicalMemoryIsExtensional :=
  ⟨fun _ _ => Memory.eq_of_read, fun _ a v h =>
    ⟨Memory.wf_write h a v, Memory.write_read h a, fun u => Memory.write_write h a u v⟩⟩

/-- Settles O49: the branches of `regionOf` test the bounds in rising order. -/
theorem regionMap : Obligations.RegionMap := by
  intro a
  have hkbd : a = Config.kbdPort ↔ a.toNat = 0xFDFE := BitVec.toNat_inj.symm
  refine ⟨regionOf_eq_rom a, ?_⟩
  simp only [regionOf, Config.romLast, Config.vramLast, Config.ramLast, hkbd]
  split_ifs <;> simp only [true_iff, false_iff] <;> omega

/-- Settles O50, by induction on the image: a word of it is written once, and no word outside its range is. -/
theorem imageLoad : Obligations.ImageLoad := by
  refine ⟨fun image addr s hwf ha hfit => ?_, fun image _ s ha => loadImage_beyondRom ha image s,
    fun _ _ s ha hlong => loadImage_leavesRom ha hlong s⟩
  have hmem : addr + image.length ≤ Config.memWords := hfit.trans (by decide)
  exact ⟨_, loadImage_of_fits ha hfit s, fun k hk => read_copyImage_inside hwf hmem hk,
    fun a ha => read_copyImage_outside hwf hmem ha, fun _ _ => rfl, rfl, rfl, rfl, rfl, rfl, rfl, rfl, rfl⟩

/-- Settles O51, by induction on the words one way and on the pairs of bytes the other. -/
theorem imageFileRoundTrip : Obligations.ImageFileRoundTrip := by
  refine ⟨fun ws h => ?_, fun bytes ws h => ?_, fun bytes hlen hodd => ?_, fun bytes => imageOfFile_of_long⟩
  · rw [imageOfFile_of_short (by rw [length_flatMap_bytesOfWord]; omega), wordsOfBytes_flatMap_bytesOfWord]
    rfl
  · exact flatMap_bytesOfWord_of_wordsOfBytes (wordsOfBytes_of_imageOfFile h)
  · rw [imageOfFile_of_short hlen, wordsOfBytes_of_odd hodd]
    rfl

/-- Settles O53: the device's delivery takes the fault, so the phase stops there and the CPU step does nothing. -/
theorem readOnlyRomPortWriteFaults : Obligations.ReadOnlyRomPortWriteFaults := by
  intro s before after d p b hlive hrom hdev hrun hport hp hpend hans
  obtain ⟨-, hparams, hcycles⟩ := serviceFrom_keeps before 0 s
  have hloop := serviceFrom_keeps_field State.phase serviceDevice_phase before 0 s
  have hdevices := devicePhase_of_strictRom hrom hdev hrun hport hp hpend hans
  have hstop : (devicePhase s).status ≠ .running := by simp [hdevices]
  refine ⟨(devicePhase s).countCycle, step_of_devicePhase_stops hlive hstop, ?_⟩
  simp [hdevices, KeepsCpuAndMemory, State.dump, hloop, hparams, hcycles]

end

/-! # The family of 30_encoding.md: packing, decoding under both policies, the opcode table, and the assembler -/

section
/-! ## The fields determine the word, and packing them gives it back (30_encoding.md R101, R102) -/

namespace Sys2Proof

/-- Two words are equal when their fields and the bits below `reg2` are. -/
theorem eq_iff_fields (w v : Word) :
    w = v ↔ (decodeFields w).op = (decodeFields v).op ∧ (decodeFields w).mode = (decodeFields v).mode ∧
      (decodeFields w).reg1 = (decodeFields v).reg1 ∧ (decodeFields w).reg2 = (decodeFields v).reg2 ∧
      w.extractLsb' 0 5 = v.extractLsb' 0 5 := by
  simp only [decodeFields, modeBit_eq, decide_eq_decide, ← BitVec.toNat_inj, extract_toNat]
  omega

theorem mode_eq_decide (w : Word) : (decodeFields w).mode = decide (w.toNat / 2048 % 2 = 1) := modeBit_eq w

theorem encodeImmFields_decodeFields {w : Word} (h : (decodeFields w).mode = true) :
    encodeImmFields (decodeFields w).op (decodeFields w).reg1 (decodeFields w).imm8 = w := by
  rw [mode_eq_decide, decide_eq_true_eq] at h
  rw [← BitVec.toNat_inj, encodeImmFields_toNat]
  simp only [decodeFields, extract_toNat]
  omega

theorem encodeRegFields_decodeFields {w : Word} (h : (decodeFields w).mode = false) (hlow : w.extractLsb' 0 5 = 0) :
    encodeRegFields (decodeFields w).op (decodeFields w).reg1 (decodeFields w).reg2 = w := by
  rw [eq_iff_fields, decodeFields_encodeRegFields, lowBits_encodeRegFields]
  exact ⟨rfl, h.symm, rfl, rfl, hlow.symm⟩

/-- In a register form the re-packed word has the bits from `reg2` up, whatever `w[4:0]` is. -/
theorem encodeRegFields_decodeFields_highBits {w : Word} (h : (decodeFields w).mode = false) :
    encodeRegFields (decodeFields w).op (decodeFields w).reg1 (decodeFields w).reg2 >>> 5 = w >>> 5 := by
  rw [mode_eq_decide, decide_eq_false_iff_not] at h
  rw [← BitVec.toNat_inj]
  simp only [BitVec.toNat_ushiftRight, encodeRegFields_toNat, decodeFields, extract_toNat, Nat.shiftRight_eq_div_pow]
  omega

/-- `EncodeFields` of R102. -/
def Fields.pack (f : Fields) : Word :=
  if f.mode = true then encodeImmFields f.op f.reg1 f.imm8 else encodeRegFields f.op f.reg1 f.reg2

theorem low12_eq_zero_iff (w : Word) :
    w.extractLsb' 0 12 = 0#12 ↔ (decodeFields w).mode = false ∧ (decodeFields w).reg1 = 0#3 ∧
      (decodeFields w).reg2 = 0#3 ∧ w.extractLsb' 0 5 = 0#5 := by
  rw [mode_eq_decide, decide_eq_false_iff_not]
  simp only [decodeFields, ← BitVec.toNat_inj, extract_toNat, BitVec.toNat_ofNat]
  omega

theorem imm8_eq_zero_iff (w : Word) :
    (decodeFields w).imm8 = 0#8 ↔ (decodeFields w).reg2 = 0#3 ∧ w.extractLsb' 0 5 = 0#5 := by
  simp only [decodeFields, ← BitVec.toNat_inj, extract_toNat, BitVec.toNat_ofNat]
  omega

end Sys2Proof
end

section
/-! ## Well-formed words, by the fields a form leaves unused (R107) -/

namespace Sys2Proof

/-- Which of the fields `reg1`, `reg2` and `w[4:0]` a form leaves unused. -/
structure Unused where
  reg1 : Bool
  reg2 : Bool
  low : Bool

/-- The forms of R107: a mnemonic and a mode, with the fields that have to be zero; none where there is no such form. -/
def unusedFields : Mnemonic → Bool → Option Unused
  | .NOP, false | .HALT, false => some ⟨true, true, true⟩
  | .MWL, true | .MWH, true => some ⟨true, false, false⟩
  | .MW, false | .LW, false | .SW, false | .ADD, false | .SUB, false | .AND, false | .ADDC, false | .NOT, false =>
    some ⟨false, false, true⟩
  | .MW, true | .LW, true | .SW, true | .ADD, true | .SUB, true | .AND, true | .ADDC, true | .NOT, true =>
    some ⟨false, false, false⟩
  | .JMPZ, false | .JMPN, false | .PUSH, false => some ⟨true, false, true⟩
  | .JMPZ, true | .JMPN, true | .PUSH, true => some ⟨true, false, false⟩
  | .POP, false => some ⟨false, true, true⟩
  | .NOP, true | .HALT, true | .MWL, false | .MWH, false | .POP, true => none

/-- The unused fields of a word are zero. -/
def Unused.ZeroIn (u : Unused) (w : Word) : Prop :=
  (u.reg1 = true → (decodeFields w).reg1 = 0) ∧ (u.reg2 = true → (decodeFields w).reg2 = 0) ∧
    (u.low = true → w.extractLsb' 0 5 = 0)

theorem wellFormed_iff (w : Word) :
    wellFormed w = true ↔
      ∃ u, unusedFields (Mnemonic.ofOpcode (decodeFields w).op) (decodeFields w).mode = some u ∧ u.ZeroIn w := by
  cases hm : Mnemonic.ofOpcode (decodeFields w).op with
  | NOP | HALT =>
    cases hmode : (decodeFields w).mode <;> simp [wellFormed, unusedFields, Unused.ZeroIn, hm, low12_eq_zero_iff, hmode]
  | POP =>
    cases hmode : (decodeFields w).mode <;> simp [wellFormed, unusedFields, Unused.ZeroIn, hm, imm8_eq_zero_iff, hmode]
  | _ => cases hmode : (decodeFields w).mode <;> simp [wellFormed, unusedFields, Unused.ZeroIn, hm, hmode]

/-- A register form uses no bit below `reg2`. -/
theorem unusedFields_low {m : Mnemonic} {u : Unused} (h : unusedFields m false = some u) : u.low = true := by
  cases m <;> cases h <;> rfl

theorem lowBits_of_wellFormed {w : Word} (h : wellFormed w = true) (hmode : (decodeFields w).mode = false) :
    w.extractLsb' 0 5 = 0 := by
  obtain ⟨u, hu, -, -, hlow⟩ := (wellFormed_iff w).1 h
  rw [hmode] at hu
  exact hlow (unusedFields_low hu)

theorem pack_decodeFields {w : Word} (h : wellFormed w = true) : (decodeFields w).pack = w := by
  unfold Fields.pack
  split
  next hmode => exact encodeImmFields_decodeFields hmode
  next hmode =>
    have hmode := Bool.eq_false_of_not_eq_true hmode
    exact encodeRegFields_decodeFields hmode (lowBits_of_wellFormed h hmode)

/-- Where the registers a form does not use are zero, encoding the instruction packs the fields it was read from. -/
theorem encode_instrOfFields_eq_pack {f : Fields} {u : Unused}
    (hu : unusedFields (Mnemonic.ofOpcode f.op) f.mode = some u) (hreg1 : u.reg1 = true → f.reg1 = 0)
    (hreg2 : u.reg2 = true → f.reg2 = 0) : encode (instrOfFields f) = f.pack := by
  obtain ⟨op, mode, reg1, reg2, imm8⟩ := f
  obtain ⟨m, rfl⟩ : ∃ m : Mnemonic, m.opcode = op := ⟨_, Mnemonic.opcode_ofOpcode op⟩
  rw [Mnemonic.ofOpcode_opcode] at hu
  cases m <;> cases mode <;> cases hu <;> simp_all [instrOfFields, encode, Fields.pack]

theorem encode_instrOfFields {w : Word} (h : wellFormed w = true) : encode (instrOfFields (decodeFields w)) = w := by
  obtain ⟨u, hu, hreg1, hreg2, -⟩ := (wellFormed_iff w).1 h
  exact (encode_instrOfFields_eq_pack hu hreg1 hreg2).trans (pack_decodeFields h)

theorem decode_strict_eq_ok_iff {w : Word} {i : Instr} :
    decode .strict w = .ok i ↔ wellFormed w = true ∧ instrOfFields (decodeFields w) = i := by
  cases hw : wellFormed w <;> simp [decode, hw]

/-- The decoder reads the mnemonic off the opcode, whatever the other fields are (R105). -/
theorem instrOfFields_mnemonic (f : Fields) : (instrOfFields f).source.mnemonic = Mnemonic.ofOpcode f.op := by
  cases hm : Mnemonic.ofOpcode f.op <;> cases hmode : f.mode <;> simp [instrOfFields, hm, hmode, Instr.source]

end Sys2Proof
end

section
/-! ## The 27 rows as the forms of R107 -/

namespace Sys2Proof

/-- All ones or all zeros: the mask of a field. -/
def fieldMask (n : Nat) (b : Bool) : BitVec n := if b then BitVec.allOnes n else 0

/-- Opcode and mode are always looked at, and so are the unused fields. -/
def Unused.mask (u : Unused) : Word :=
  BitVec.allOnes 5 ++ fieldMask 3 u.reg1 ++ fieldMask 3 u.reg2 ++ fieldMask 5 u.low

/-- The row of a mnemonic and a mode: opcode and mode as given, the unused fields zero. -/
def Unused.row (u : Unused) (m : Mnemonic) (mode : Bool) : Form :=
  ⟨u.mask, m.opcode ++ BitVec.ofBool mode ++ 0#11, m⟩

theorem opcodeForms_eq : opcodeForms =
    [.NOP, .HALT, .MW, .MWL, .MWH, .LW, .SW, .ADD, .SUB, .AND, .ADDC, .NOT, .JMPZ, .JMPN, .PUSH, .POP].flatMap
      fun m => [false, true].filterMap fun mode => (unusedFields m mode).map (Unused.row · m mode) := by
  rfl

theorem mem_opcodeForms_iff (f : Form) :
    f ∈ opcodeForms ↔ ∃ m mode u, unusedFields m mode = some u ∧ u.row m mode = f := by
  rw [opcodeForms_eq]
  simp only [List.mem_flatMap, List.mem_filterMap, Option.map_eq_some_iff]
  constructor
  · rintro ⟨m, -, mode, -, u, hu, hf⟩
    exact ⟨m, mode, u, hu, hf⟩
  · rintro ⟨m, mode, u, hu, hf⟩
    exact ⟨m, by cases m <;> decide, mode, by cases mode <;> decide, u, hu, hf⟩

theorem mask_fields (u : Unused) :
    (decodeFields u.mask).op = BitVec.allOnes 4 ∧ (decodeFields u.mask).mode = true ∧
      (decodeFields u.mask).reg1 = fieldMask 3 u.reg1 ∧ (decodeFields u.mask).reg2 = fieldMask 3 u.reg2 ∧
      u.mask.extractLsb' 0 5 = fieldMask 5 u.low := by
  obtain ⟨b1, b2, b3⟩ := u
  cases b1 <;> cases b2 <;> cases b3 <;> decide

theorem pattern_fields (u : Unused) (m : Mnemonic) (mode : Bool) :
    (decodeFields (u.row m mode).pattern).op = m.opcode ∧ (decodeFields (u.row m mode).pattern).mode = mode ∧
      (decodeFields (u.row m mode).pattern).reg1 = 0#3 ∧ (decodeFields (u.row m mode).pattern).reg2 = 0#3 ∧
      (u.row m mode).pattern.extractLsb' 0 5 = 0#5 := by
  simp only [Unused.row]
  cases m <;> cases mode <;> decide

/-- The bits under a mask, field by field. -/
theorem decodeFields_and (w v : Word) :
    decodeFields (w &&& v) =
      ⟨(decodeFields w).op &&& (decodeFields v).op, (decodeFields w).mode && (decodeFields v).mode,
        (decodeFields w).reg1 &&& (decodeFields v).reg1, (decodeFields w).reg2 &&& (decodeFields v).reg2,
        (decodeFields w).imm8 &&& (decodeFields v).imm8⟩ := by
  simp [decodeFields, BitVec.extractLsb'_and]

theorem and_fieldMask_eq_zero_iff {n : Nat} (x : BitVec n) (b : Bool) :
    x &&& fieldMask n b = 0#n ↔ (b = true → x = 0#n) := by
  cases b <;> simp [fieldMask]

theorem row_covers_iff (u : Unused) (m : Mnemonic) (mode : Bool) (w : Word) :
    (u.row m mode).covers w = true ↔
      (decodeFields w).op = m.opcode ∧ (decodeFields w).mode = mode ∧ u.ZeroIn w := by
  obtain ⟨hop, hmode, hreg1, hreg2, hlow⟩ := mask_fields u
  obtain ⟨hop', hmode', hreg1', hreg2', hlow'⟩ := pattern_fields u m mode
  have hcovers : (u.row m mode).covers w = true ↔ w &&& u.mask = (u.row m mode).pattern := beq_iff_eq
  rw [hcovers, eq_iff_fields, decodeFields_and, BitVec.extractLsb'_and, hop, hmode, hreg1, hreg2, hlow,
    hop', hmode', hreg1', hreg2', hlow', BitVec.and_allOnes, Bool.and_true]
  simp only [and_fieldMask_eq_zero_iff, Unused.ZeroIn, BitVec.ofNat_eq_ofNat]

/-- The words a row of the table covers: the row's form is the word's own, and its unused fields are zero. -/
theorem exists_row_of_covers {f : Form} {w : Word} (hf : f ∈ opcodeForms) (hw : f.covers w = true) :
    ∃ u, unusedFields (Mnemonic.ofOpcode (decodeFields w).op) (decodeFields w).mode = some u ∧ u.ZeroIn w ∧
      f = u.row (Mnemonic.ofOpcode (decodeFields w).op) (decodeFields w).mode := by
  obtain ⟨m, mode, u, hu, rfl⟩ := (mem_opcodeForms_iff f).1 hf
  obtain ⟨hop, hmode, hzero⟩ := (row_covers_iff u m mode w).1 hw
  rw [hop, hmode, Mnemonic.ofOpcode_opcode]
  exact ⟨u, hu, hzero, rfl⟩

theorem wellFormed_iff_covered (w : Word) : wellFormed w = true ↔ ∃ f ∈ opcodeForms, f.covers w = true := by
  rw [wellFormed_iff]
  constructor
  · rintro ⟨u, hu, hzero⟩
    refine ⟨_, (mem_opcodeForms_iff _).2 ⟨_, _, u, hu, rfl⟩, (row_covers_iff u _ _ w).2 ⟨?_, rfl, hzero⟩⟩
    exact (Mnemonic.opcode_ofOpcode _).symm
  · rintro ⟨f, hf, hw⟩
    obtain ⟨u, hu, hzero, -⟩ := exists_row_of_covers hf hw
    exact ⟨u, hu, hzero⟩

end Sys2Proof
end

section
/-! ## What the lenient decoder ignores (R109) -/

namespace Sys2Proof

theorem reg2_of_lowByte {w v : Word} (h : w.extractLsb' 0 8 = v.extractLsb' 0 8) :
    (decodeFields w).reg2 = (decodeFields v).reg2 := by
  simp only [decodeFields, ← BitVec.toNat_inj, extract_toNat] at h ⊢
  omega

theorem fields_of_highBits {w v : Word} (h : w.extractLsb' 5 11 = v.extractLsb' 5 11) :
    (decodeFields w).op = (decodeFields v).op ∧ (decodeFields w).mode = (decodeFields v).mode ∧
      (decodeFields w).reg1 = (decodeFields v).reg1 ∧ (decodeFields w).reg2 = (decodeFields v).reg2 := by
  simp only [decodeFields, modeBit_eq, decide_eq_decide, ← BitVec.toNat_inj, extract_toNat] at h ⊢
  omega

/-- `MWL` and `MWH` apart, a register form's instruction does not depend on `imm8`. -/
theorem instrOfFields_regForm {f g : Fields} (hop : f.op = g.op) (hf : f.mode = false) (hg : g.mode = false)
    (hreg1 : f.reg1 = g.reg1) (hreg2 : f.reg2 = g.reg2) (hmwl : f.op ≠ Mnemonic.MWL.opcode)
    (hmwh : f.op ≠ Mnemonic.MWH.opcode) : instrOfFields f = instrOfFields g := by
  have hopcode := Mnemonic.opcode_ofOpcode f.op
  unfold instrOfFields
  rw [← hop, hf, hg, hreg1, hreg2]
  cases hm : Mnemonic.ofOpcode f.op with
  | MWL => exact absurd (hm ▸ hopcode).symm hmwl
  | MWH => exact absurd (hm ▸ hopcode).symm hmwh
  | _ => rfl

/-- The instruction of a jump or a push does not depend on `reg1`. -/
theorem instrOfFields_noReg1 {f g : Fields} (hop : f.op = g.op) (hmode : f.mode = g.mode) (hreg2 : f.reg2 = g.reg2)
    (himm : f.imm8 = g.imm8)
    (h : f.op = Mnemonic.JMPZ.opcode ∨ f.op = Mnemonic.JMPN.opcode ∨ f.op = Mnemonic.PUSH.opcode) :
    instrOfFields f = instrOfFields g := by
  unfold instrOfFields
  rw [← hop, hmode, hreg2, himm]
  obtain h | h | h := h <;> rw [h] <;> rfl

end Sys2Proof
end

section
/-! ## Instructions as written, and the assembler's check of them (R104, R117, R118, R124) -/

namespace Sys2Proof

theorem Instr.wellFormed_true (i : Instr) : i.wellFormed = true := by
  cases i <;>
    simp [Instr.wellFormed, Instr.source, AsmInstr.wellFormed, Mnemonic.shape, Shape.arity, Shape.admits,
      Laws.SourceWellFormed.inRange_byte, Laws.SourceWellFormed.inRange_reg]

theorem AsmInstr.wellFormed_iff (x : AsmInstr) :
    x.wellFormed = true ↔ x.operands.length = x.mnemonic.shape.arity ∧ x.mnemonic.shape.admits x.operands = true ∧
      x.operands.all AsmOperand.inRange = true := by
  simp only [AsmInstr.wellFormed, Bool.and_eq_true, beq_iff_eq]

end Sys2Proof

namespace Sys2Proof.Assembler

theorem instrOf_source (i : Instr) : instrOf i.source = some i := by
  cases i <;> simp [instrOf, Instr.source]

/-- In range, a literal is the number of its 8 bits (R118). -/
theorem source_of_instrOf {x : AsmInstr} {i : Instr} (hrange : x.operands.all AsmOperand.inRange = true)
    (h : instrOf x = some i) : i.source = x := by
  obtain ⟨m, os⟩ := x
  unfold instrOf at h
  split at h <;> cases h <;> simp_all [Instr.source, AsmOperand.inRange]

/-- The three checks are those of well-formedness, and what passes them is given its instruction. -/
theorem checkInstr_eq_ok_iff {x : AsmInstr} {i : Instr} :
    checkInstr x = .ok i ↔ x.wellFormed = true ∧ instrOf x = some i := by
  rw [AsmInstr.wellFormed_iff]
  unfold checkInstr
  split_ifs with hcount hkinds hrange
  · simp [hcount]
  · simp [Bool.not_eq_true' _ ▸ hkinds]
  · simp [Bool.not_eq_true' _ ▸ hrange]
  · rw [Bool.not_eq_true', Bool.not_eq_false] at hkinds hrange
    rw [Decidable.not_not] at hcount
    cases instrOf x <;> simp [hcount, hkinds, hrange]

end Sys2Proof.Assembler
end

section
/-! ## The two passes of the assembler, `.org` and padding (R119 to R123, R125) -/

namespace Sys2Proof.Assembler

/-- `.org` moves forward only. -/
theorem le_of_orgMove {constants : Table} {t : Token} {pos p : Nat} (h : orgMove constants t pos = .ok p) :
    pos ≤ p := by
  unfold orgMove at h
  split at h
  next => cases h
  next v _ =>
    split_ifs at h with hv
    cases h
    exact Nat.le_of_not_lt hv

theorem orgMove_of_orgValue {constants : Table} {t : Token} {v : Nat} (h : orgValue constants t = .ok v) (pos : Nat) :
    orgMove constants t pos = if v < pos then .error .directive else .ok v := by
  simp only [orgMove, h]

theorem encode_nop : encode .nop = 0 := rfl

theorem lineTwo_org {constants : Table} {t : Token} {v : Nat} (h : orgValue constants t = .ok v) (sy : Symbols)
    (pos : Nat) :
    lineTwo sy constants pos (.org t) =
      if v < pos then .error .directive else .ok (List.replicate (v - pos) 0) := by
  simp only [lineTwo, orgMove_of_orgValue h]
  split_ifs <;> rfl

theorem padImage_of_fits {k : Nat} {ws : List Word} (h : ws.length ≤ 512 * k) (file : Token) (lines : Nat) :
    padImage file (some k) lines ws = .ok (ws ++ List.replicate (512 * k - ws.length) 0) := by
  simp only [padImage, if_neg (Nat.not_lt.2 h), encode_nop]

theorem padImage_of_longer {k : Nat} {ws : List Word} (h : 512 * k < ws.length) (file : Token) (lines : Nat) :
    padImage file (some k) lines ws = .error ⟨.imageTooSmall, file, lines⟩ := by
  simp only [padImage, if_pos h]

theorem Table.define_eq_some {t t' : Table} {name : Token} {v : Nat} (h : t.define name v = some t') :
    t.lookup name = none ∧ t' = (name, v) :: t := by
  unfold Table.define at h
  split_ifs at h with hdef
  cases h
  exact ⟨Option.not_isSome_iff_eq_none.1 hdef, rfl⟩

theorem Table.get_define_self {t t' : Table} {name : Token} {v : Nat} (h : t.define name v = some t') :
    t'.get name = some v := by
  obtain ⟨-, rfl⟩ := Table.define_eq_some h
  exact List.lookup_cons_self

/-- A definition hides no name that was known. -/
theorem Table.get_define_of_get {t t' : Table} {name other : Token} {v x : Nat} (h : t.define name v = some t')
    (hx : t.get other = some x) : t'.get other = some x := by
  obtain ⟨hnew, rfl⟩ := Table.define_eq_some h
  have hne : other ≠ name := by
    rintro rfl
    cases hnew.symm.trans hx
  rw [Table.get, List.lookup_cons, beq_false_of_ne hne]
  exact hx

/-- Everything a line can do in pass 1: the position stays, with a name defined or not, or moves. -/
theorem lineOne_cases {pos next : Nat} {sy sy' : Symbols} {l : Line} (h : lineOne pos sy l = .ok (next, sy')) :
    (l = .empty ∧ next = pos ∧ sy' = sy) ∨
      (∃ n ls, l = .label n ∧ sy.labels.define n pos = some ls ∧ next = pos ∧ sy' = { sy with labels := ls }) ∨
      (∃ v, l = .org v ∧ orgMove sy.constants v pos = .ok next ∧ sy' = sy) ∨
      (∃ n v x cs, l = .const n v ∧ constValue v = .ok x ∧ sy.constants.define n x = some cs ∧ next = pos ∧
        sy' = { sy with constants := cs }) ∨
      (∃ n, l = .target n ∧ next = pos + 2 ∧ sy' = sy) ∨
      ∃ m rest, l = .instr m rest ∧ next = pos + 1 ∧ sy' = sy := by
  cases l with
  | empty => cases h; simp
  | label n =>
    cases hd : sy.labels.define n pos <;> simp only [lineOne, hd] at h <;> cases h
    simp [hd]
  | org v =>
    cases ho : orgMove sy.constants v pos <;> simp only [lineOne, ho] at h <;> cases h
    simp [ho]
  | const n v =>
    cases hv : constValue v with
    | error e => simp only [lineOne, hv] at h; cases h
    | ok x =>
      cases hd : sy.constants.define n x <;> simp only [lineOne, hv, hd] at h <;> cases h
      simp [hv, hd]
  | target n => cases h; simp
  | instr m rest => cases h; simp

/-- Where both passes accept a line they move alike and know the same constants after it. -/
theorem lineTwo_length {pos next : Nat} {sy sy' full : Symbols} {l : Line} {ws : List Word}
    (h₁ : lineOne pos sy l = .ok (next, sy')) (h₂ : lineTwo full sy.constants pos l = .ok ws) :
    pos + ws.length = next ∧ constantsAfter sy.constants l = sy'.constants := by
  obtain ⟨rfl, rfl, rfl⟩ | ⟨n, ls, rfl, -, rfl, rfl⟩ | ⟨v, rfl, hmove, rfl⟩ | ⟨n, v, x, cs, rfl, hx, hdef, rfl, rfl⟩ |
    ⟨n, rfl, rfl, rfl⟩ | ⟨m, rest, rfl, rfl, rfl⟩ := lineOne_cases h₁
  · cases h₂; exact ⟨rfl, rfl⟩
  · cases h₂; exact ⟨rfl, rfl⟩
  · simp only [lineTwo, hmove] at h₂
    cases h₂
    have := le_of_orgMove hmove
    rw [List.length_replicate]
    exact ⟨by omega, rfl⟩
  · cases h₂
    simp [constantsAfter, hx, hdef]
  · cases hget : full.labels.get n <;> simp only [lineTwo, hget] at h₂ <;> cases h₂
    exact ⟨rfl, rfl⟩
  · cases hi : parseInstr full.constants m rest <;> simp only [lineTwo, hi] at h₂ <;> cases h₂
    exact ⟨rfl, rfl⟩

theorem passOne_cons_eq_ok {file : Token} {line pos : Nat} {sy : Symbols} {l : Line} {ls : List Line} {out : PassOutput}
    (h : passOne file line pos sy (l :: ls) = .ok out) :
    ∃ next sy', lineOne pos sy l = .ok (next, sy') ∧ passOne file (line + 1) next sy' ls = .ok out := by
  unfold passOne at h
  split at h
  next => cases h
  next r hr => exact ⟨r.1, r.2, hr, h⟩

theorem passTwo_cons_eq_ok {file : Token} {full : Symbols} {line pos : Nat} {defined : Table} {l : Line}
    {ls : List Line} {ws : List Word} (h : passTwo file full line pos defined (l :: ls) = .ok ws) :
    ∃ first rest, lineTwo full defined pos l = .ok first ∧
      passTwo file full (line + 1) (pos + first.length) (constantsAfter defined l) ls = .ok rest ∧
      ws = first ++ rest := by
  unfold passTwo at h
  split at h
  next => cases h
  next first hfirst =>
    split at h
    next => cases h
    next rest hrest => cases h; exact ⟨first, rest, hfirst, hrest, rfl⟩

/-- The length pass 1 answers is where pass 2 ends. -/
theorem passTwo_length {file : Token} {full : Symbols} {ls : List Line} {line pos : Nat} {sy : Symbols}
    {out : PassOutput} {ws : List Word} (h₁ : passOne file line pos sy ls = .ok out)
    (h₂ : passTwo file full line pos sy.constants ls = .ok ws) : pos + ws.length = out.length := by
  induction ls generalizing line pos sy ws with
  | nil => cases h₁; cases h₂; rfl
  | cons l ls ih =>
    obtain ⟨next, sy', hl, hls⟩ := passOne_cons_eq_ok h₁
    obtain ⟨first, rest, hfirst, hrest, rfl⟩ := passTwo_cons_eq_ok h₂
    obtain ⟨hnext, hconst⟩ := lineTwo_length hl hfirst
    rw [hnext, hconst] at hrest
    rw [List.length_append, ← Nat.add_assoc, hnext]
    exact ih hls hrest

theorem passOne_append {file : Token} {before after : List Line} {line pos : Nat} {sy : Symbols} {out : PassOutput}
    (h : passOne file line pos sy (before ++ after) = .ok out) :
    ∃ mid, passOne file line pos sy before = .ok mid ∧
      passOne file (line + before.length) mid.length mid.symbols after = .ok out := by
  induction before generalizing line pos sy with
  | nil => exact ⟨⟨sy, pos⟩, rfl, h⟩
  | cons l ls ih =>
    obtain ⟨next, sy', hl, hls⟩ := passOne_cons_eq_ok h
    obtain ⟨mid, hmid, hafter⟩ := ih hls
    refine ⟨mid, ?_, ?_⟩
    · simp only [passOne, hl, hmid]
    · rwa [List.length_cons, Nat.add_comm ls.length, ← Nat.add_assoc]

/-- A label known before a line is known after it, at the same position. -/
theorem lineOne_keepsLabel {pos next : Nat} {sy sy' : Symbols} {l : Line} {name : Token} {p : Nat}
    (h : lineOne pos sy l = .ok (next, sy')) (hp : sy.labels.get name = some p) : sy'.labels.get name = some p := by
  obtain ⟨-, -, rfl⟩ | ⟨n, ls, -, hdef, -, rfl⟩ | ⟨v, -, -, rfl⟩ | ⟨n, v, x, cs, -, -, -, -, rfl⟩ | ⟨n, -, -, rfl⟩ |
    ⟨m, rest, -, -, rfl⟩ := lineOne_cases h
  case inr.inl => exact Table.get_define_of_get hdef hp
  all_goals exact hp

theorem passOne_keepsLabel {file : Token} {ls : List Line} {line pos : Nat} {sy : Symbols} {out : PassOutput}
    {name : Token} {p : Nat} (h : passOne file line pos sy ls = .ok out) (hp : sy.labels.get name = some p) :
    out.symbols.labels.get name = some p := by
  induction ls generalizing line pos sy with
  | nil => cases h; exact hp
  | cons l ls ih =>
    obtain ⟨next, sy', hl, hls⟩ := passOne_cons_eq_ok h
    exact ih hls (lineOne_keepsLabel hl hp)

theorem lineOne_label {pos next : Nat} {sy sy' : Symbols} {name : Token}
    (h : lineOne pos sy (.label name) = .ok (next, sy')) : sy'.labels.get name = some pos := by
  cases hdef : sy.labels.define name pos <;> simp only [lineOne, hdef] at h <;> cases h
  exact Table.get_define_self hdef

/-- A label stands for the position pass 1 has reached where it is defined (R119). -/
theorem passOne_label {file : Token} {after : List Line} {line pos : Nat} {sy : Symbols} {out : PassOutput}
    {name : Token} (h : passOne file line pos sy (.label name :: after) = .ok out) :
    out.symbols.labels.get name = some pos := by
  obtain ⟨next, sy', hl, hafter⟩ := passOne_cons_eq_ok h
  exact passOne_keepsLabel hafter (lineOne_label hl)

theorem assembleLines_of_passOne {file : Token} {ls : List Line} {out : PassOutput}
    (h : passOne file 1 0 ⟨[], []⟩ ls = .ok out) :
    assembleLines file ls = passTwo file out.symbols 1 0 [] ls := by
  simp only [assembleLines, h]

end Sys2Proof.Assembler
end

section
/-! ## Constants in an instruction line (R117, R122) -/

namespace Sys2Proof.Assembler

theorem digitValue_digitChar {d : Nat} (h : d < 10) : digitValue d.digitChar = some d := by
  have digits : ∀ k : Fin 10, digitValue (Nat.digitChar k) = some k.val := by decide
  exact digits ⟨d, h⟩

theorem digitsValue_singleton {base d : Nat} {c : Char} (hc : digitValue c = some d) (hd : d < base) :
    digitsValue base [c] = some d := by
  simp [digitsValue, hc, hd]

theorem digitsValue_concat {base n d : Nat} {ds : List Char} {c : Char} (h : digitsValue base ds = some n)
    (hc : digitValue c = some d) (hd : d < base) : digitsValue base (ds ++ [c]) = some (n * base + d) := by
  cases ds with
  | nil => cases h
  | cons c₀ cs =>
    simp only [digitsValue, List.cons_append, List.foldl_cons, List.foldl_append] at h ⊢
    simp [h, hc, hd]

/-- The decimal spelling of a number is read back as the number. -/
theorem digitsValue_toDigits (v : Nat) : digitsValue 10 (Nat.toDigits 10 v) = some v := by
  induction v using Nat.strongRecOn with
  | ind v ih =>
    rcases Nat.lt_or_ge v 10 with hv | hv
    · rw [Nat.toDigits_of_lt_base hv]
      exact digitsValue_singleton (digitValue_digitChar hv) hv
    · have hmod : v % 10 < 10 := Nat.mod_lt v (by decide)
      rw [Nat.toDigits_of_base_le (by decide) hv,
        digitsValue_concat (ih (v / 10) (by omega)) (digitValue_digitChar hmod) hmod, Nat.div_add_mod']

/-- The decimal spelling has no leading zero, so it is never read as octal or hexadecimal (R118). -/
theorem toDigits_eq_zero_cons {v : Nat} {ds : List Char} (h : Nat.toDigits 10 v = '0' :: ds) : ds = [] := by
  induction v using Nat.strongRecOn generalizing ds with
  | ind v ih =>
    rcases Nat.lt_or_ge v 10 with hv | hv
    · rw [Nat.toDigits_of_lt_base hv] at h
      exact (List.cons.inj h).2.symm
    · rw [Nat.toDigits_of_base_le (by decide) hv] at h
      obtain ⟨hnil, -⟩ | ⟨ds', hhead, -⟩ := List.append_eq_cons_iff.1 h
      · exact absurd hnil Nat.toDigits_ne_nil
      · have hzero := digitsValue_toDigits (v / 10)
        rw [hhead, ih (v / 10) (by omega) hhead] at hzero
        have : 0 = v / 10 := Option.some.inj hzero
        omega

theorem literalValue_toDigits (v : Nat) : literalValue (Nat.toDigits 10 v) = some v := by
  rw [← digitsValue_toDigits v]
  unfold literalValue
  split
  next h => cases toDigits_eq_zero_cons h
  next h => cases toDigits_eq_zero_cons h
  next h => cases toDigits_eq_zero_cons h
  next => rfl

theorem looksNumeric_toDigits (v : Nat) : looksNumeric (Nat.toDigits 10 v) = true := by
  cases h : Nat.toDigits 10 v with
  | nil => exact absurd h Nat.toDigits_ne_nil
  | cons c cs =>
    have hc : c.isDigit = true := Nat.isDigit_of_mem_toDigits (by decide) le_rfl (h ▸ List.mem_cons_self)
    simp [looksNumeric, hc]

/-- A number's spelling is no name of a table whose names do not look like numbers. -/
theorem lookup_toDigits_eq_none {α : Type} {names : List (Token × α)}
    (h : ∀ p ∈ names, looksNumeric p.1 = false) (v : Nat) : names.lookup (Nat.toDigits 10 v) = none := by
  refine List.lookup_eq_none_iff.2 fun p hp => bne_iff_ne.2 fun heq => ?_
  exact Bool.noConfusion ((looksNumeric_toDigits v).symm.trans (heq ▸ h p hp))

theorem substitute_constant {cs : Table} {name : Token} {v : Nat} (h : cs.get name = some v) :
    substitute cs name = Nat.toDigits 10 v := by
  simp only [substitute, h]

theorem substitute_other {cs : Table} {name : Token} (h : cs.get name = none) : substitute cs name = name := by
  simp only [substitute, h]

theorem parseOperand_constant {cs : Table} {name : Token} {v : Nat} (h : cs.get name = some v) (only : Bool) :
    parseOperand cs only name = .ok (.lit v) := by
  have hreg : registerNames.lookup (Nat.toDigits 10 v) = none := lookup_toDigits_eq_none (by decide) v
  simp only [parseOperand, substitute_constant h, hreg, looksNumeric_toDigits, literalValue_toDigits, if_true]

theorem parseInstr_constant {cs : Table} {name : Token} {v : Nat} (h : cs.get name = some v) (rest : List Char) :
    parseInstr cs name rest = .error .unknownInstruction := by
  have hmnemonic : mnemonicNames.lookup (Nat.toDigits 10 v) = none := lookup_toDigits_eq_none (by decide) v
  simp only [parseInstr, substitute_constant h, hmnemonic]

end Sys2Proof.Assembler
end

section
/-! ## The obligations of the family -/

open Sys2Proof Sys2Proof.Machine

/-- Settles O2: each form packs its operands into the fields the decoder reads them from. -/
theorem decodeEncodeAgree : Obligations.DecodeEncodeAgree := fun policy i =>
  ⟨decode_encode policy i, wellFormed_encode i, i.wellFormed_true⟩

/-- Settles O1: packing is arithmetic, and a well-formed word has no bit outside the fields its form packs. -/
theorem encodeFieldsRoundTrip : Obligations.EncodeFieldsRoundTrip := by
  refine ⟨fun op reg1 r => ?_, fun op reg1 i => ?_, fun w hw => ?_, fun w hmode hlow => ⟨?_, ?_, ?_⟩⟩
  · rw [encodeRegFields_toNat, decodeFields_encodeRegFields]
    simp
  · rw [encodeImmFields_toNat, decodeFields_encodeImmFields]
    simp
  · exact (pack_decodeFields hw).symm
  · exact Bool.eq_false_of_not_eq_true fun hw => hlow (lowBits_of_wellFormed hw hmode)
  · exact fun hw => hlow (hw ▸ lowBits_encodeRegFields _ _ _)
  · exact encodeRegFields_decodeFields_highBits hmode

/-- Settles O3: a word decodes under `strict` when it is well-formed, and then its fields hold nothing more than the
instruction does. -/
theorem encodeDecodeAgree : Obligations.EncodeDecodeAgree := by
  intro w i h
  obtain ⟨hw, rfl⟩ := decode_strict_eq_ok_iff.1 h
  exact encode_instrOfFields hw

/-- Settles O4: the rows are the forms of `unusedFields`, one for each mnemonic and mode at most, and a word is of one
mnemonic and one mode. -/
theorem strictAcceptsExactlyTheOpcodeForms : Obligations.StrictAcceptsExactlyTheOpcodeForms := by
  refine ⟨rfl, fun w => ?_, fun w f hf g hg hwf hwg => ?_, fun w i f hf hw hi => ?_⟩
  · simp only [← wellFormed_iff_covered, decode_strict_eq_ok_iff, exists_and_left, exists_eq', and_true]
  · obtain ⟨u, hu, -, rfl⟩ := exists_row_of_covers hf hwf
    obtain ⟨v, hv, -, rfl⟩ := exists_row_of_covers hg hwg
    rw [Option.some.inj (hu.symm.trans hv)]
  · obtain ⟨-, rfl⟩ := decode_strict_eq_ok_iff.1 hi
    obtain ⟨u, -, -, rfl⟩ := exists_row_of_covers hf hw
    exact instrOfFields_mnemonic _

/-- Settles O5, opcode by opcode, by the fields the instruction is read from. -/
theorem lenientIgnoresUnusedFields : Obligations.LenientIgnoresUnusedFields := by
  have ofOp {w : Word} {n : BitVec 4} {i : Instr} (hw : (decodeFields w).op = n)
      (h : instrOfFields { decodeFields w with op := n } = i) : decode .lenient w = .ok i := by
    subst hw
    exact congrArg Except.ok h
  refine ⟨fun w => ⟨_, rfl, fun hw => ?_, instrOfFields_mnemonic _⟩, fun w h => ofOp h rfl, fun w h => ofOp h rfl,
    fun w h => ofOp h rfl, fun w h => ofOp h rfl, fun w h => ofOp h rfl, fun w v hop hmode hlow hjump => ?_,
    fun w v hmode hhigh hop => ?_⟩
  · exact decode_strict_eq_ok_iff.2 ⟨hw, rfl⟩
  · exact congrArg Except.ok (instrOfFields_noReg1 hop hmode (reg2_of_lowByte hlow) hlow hjump)
  · obtain ⟨hopv, hmodev, hreg1, hreg2⟩ := fields_of_highBits hhigh
    obtain ⟨hmwl, hmwh⟩ := hop
    exact congrArg Except.ok (instrOfFields_regForm hopv hmode (hmodev ▸ hmode) hreg1 hreg2 hmwl hmwh)

/-- Settles O7: the check accepts a written form when it is well-formed and `instrOf` knows its kinds, and in range a
literal is the number of its 8 bits. -/
theorem checkedSourceIsTheInstruction : Obligations.CheckedSourceIsTheInstruction := by
  refine ⟨fun i => ?_, fun x i h => ?_⟩
  · exact Assembler.checkInstr_eq_ok_iff.2 ⟨i.wellFormed_true, Assembler.instrOf_source i⟩
  · obtain ⟨hwf, hi⟩ := Assembler.checkInstr_eq_ok_iff.1 h
    obtain ⟨-, -, hrange⟩ := (AsmInstr.wellFormed_iff x).1 hwf
    exact Assembler.source_of_instrOf hrange hi

/-- Settles O58: the padding and the words of `.org` are `NOP` words, and `NOP` is the zero word. -/
theorem paddingAndOrg : Obligations.PaddingAndOrg := by
  refine ⟨fun file k lines ws h => ⟨_, Assembler.padImage_of_fits h file lines, ?_, List.take_left, fun w hw => ?_⟩,
    fun file k lines ws h => Assembler.padImage_of_longer h file lines, fun sy defined t v pos hv => ⟨?_, ?_⟩⟩
  · rw [List.length_append, List.length_replicate, Nat.add_sub_cancel' h]
  · rw [List.drop_left] at hw
    exact List.eq_of_mem_replicate hw
  · exact fun hlt => (Assembler.lineTwo_org hv sy pos).trans (if_pos hlt)
  · exact fun hle => (Assembler.lineTwo_org hv sy pos).trans (if_neg (Nat.not_lt.2 hle))

/-- Settles O59, by the moves of a line in pass 1, then by induction on the lines: pass 2 reaches the positions pass 1
reaches, and the position of a label is never changed again. -/
theorem passesAgreeOnPositions : Obligations.PassesAgreeOnPositions := by
  refine ⟨fun l pos next sy sy' full ws => Assembler.lineTwo_length, fun file ls out ws h₁ h₂ => ?_,
    fun file before after name out ws h₁ h₂ => ?_, fun sy defined pos name addr h => ?_⟩
  · rw [Assembler.assembleLines_of_passOne h₁] at h₂
    exact (Nat.zero_add _).symm.trans (Assembler.passTwo_length h₁ h₂)
  · obtain ⟨mid, hbefore, hlabel⟩ := Assembler.passOne_append h₁
    have hlength : 0 + ws.length = mid.length := Assembler.passTwo_length hbefore h₂
    rw [Assembler.passOne_label hlabel, ← hlength, Nat.zero_add]
  · simp only [Assembler.lineTwo, h]

/-- Settles O60: a decimal spelling is read back as its number, and is no register's and no mnemonic's name. -/
theorem constantsAreSubstituted : Obligations.ConstantsAreSubstituted := fun _ _ _ _ hget =>
  ⟨Assembler.parseOperand_constant hget, Assembler.parseInstr_constant hget, fun _ => Assembler.substitute_other⟩

/-- Settles O6: each word by the decoder's own evaluation. -/
theorem sampleWordsDecode : Obligations.SampleWordsDecode := by
  unfold Obligations.SampleWordsDecode
  decide

end

/-! # The family of 40_execution_cycle.md: what a step runs, what can fault, and what instructions leave alone -/

section
/-! ## The status, the outputs and the memory after an instruction, by its effect -/

namespace Sys2Proof.Machine

/-- The effects that write the bus (R191, R230). -/
def Effect.stores : Effect → Bool
  | .store _ _ | .push _ => true
  | .next | .stop | .write _ _ | .alu _ _ _ | .jump _ _ | .pop _ => false

theorem effectOf_stores {i : Instr} (h : (effectOf i).stores = true) :
    (∃ a r, i = .swReg a r) ∨ (∃ k r, i = .swImm k r) ∨ (∃ r, i = .pushReg r) ∨ ∃ k, i = .pushImm k := by
  cases i with
  | swReg a r => exact .inl ⟨a, r, rfl⟩
  | swImm k r => exact .inr (.inl ⟨k, r, rfl⟩)
  | pushReg r => exact .inr (.inr (.inl ⟨r, rfl⟩))
  | pushImm k => exact .inr (.inr (.inr ⟨k, rfl⟩))
  | _ => cases h

/-- A jump changes nothing that a change of `pc` does not. -/
theorem jumpIf_keeps {α : Type} (field : State → α) {s : State} (h : ∀ v, field (s.setPc v) = field s) (taken : Bool)
    (o : Operand) : field (jumpIf taken o s) = field s := by
  cases taken
  · exact h (s.pc + 1)
  · exact h (operandValue o s)

theorem setN_mem (r : Word) (s : State) : (setN r s).mem = s.mem :=
  (apply_ite State.mem _ _ _).trans (ite_self _)

theorem aluWrite_mem (d : Reg) (r : Word) (carry : Option Bool) (s : State) : (aluWrite d r carry s).mem = s.mem := by
  cases carry with
  | none => exact setN_mem r (setZ r (s.setReg d r))
  | some c => exact setN_mem r (setC c (setZ r (s.setReg d r)))

theorem Effect.run_mem {e : Effect} (he : e.stores = false) (s : State) : (e.run s).mem = s.mem := by
  cases e with
  | next | stop | write _ _ | pop _ => rfl
  | alu d _ _ => exact aluWrite_mem d _ _ s
  | jump _ o => exact jumpIf_keeps State.mem (fun _ => rfl) _ o
  | store _ _ | push _ => cases he

/-- A write of the bus puts out nothing, or takes the fault. -/
theorem busWrite_events {a v : Word} {rest : State → State} {s : State}
    (stored : (rest (s.poke a v)).events = s.events) :
    (busWrite a v rest s).events = s.events ∨ (busWrite a v rest s).status = .faulted := by
  obtain ⟨-, h⟩ | ⟨-, h⟩ := busWrite_cases a v rest s
  · exact .inl (h ▸ stored)
  · exact .inr (h ▸ takeFault_status _ s)

theorem Effect.run_events (e : Effect) (s : State) :
    (e.run s).events = s.events ∨ (e.run s).status = .faulted := by
  cases e with
  | next | stop | write _ _ | pop _ => exact .inl rfl
  | alu d _ _ =>
    obtain ⟨-, -, -, -, -, -, -, -, -, hev, -⟩ := aluWrite_effect d _ _ s
    exact .inl hev
  | jump _ o => exact .inl (jumpIf_keeps State.events (fun _ => rfl) _ o)
  | store _ _ => exact busWrite_events rfl
  | push _ => exact busWrite_events rfl

/-- With ROM writable, the one status an instruction sets is `Halted` (R160, R171). -/
theorem Effect.run_status (e : Effect) {s : State} (hrom : s.params.romWritable = true) :
    (e.run s).status = .halted ∨ (e.run s).status = s.status := by
  cases e with
  | stop => exact .inl rfl
  | next | write _ _ | pop _ => exact .inr rfl
  | alu d _ _ =>
    obtain ⟨-, -, -, -, hstatus, -⟩ := aluWrite_effect d _ _ s
    exact .inr hstatus
  | jump _ o => exact .inr (jumpIf_keeps State.status (fun _ => rfl) _ o)
  | store o src => exact .inr (by rw [Effect.run, storeWord_of_romWritable hrom]; rfl)
  | push o => exact .inr (by rw [Effect.run, pushValue_of_romWritable hrom]; rfl)

theorem exec_not_faulted {i : Instr} {s t : State} (hrom : s.params.romWritable = true) (hrun : s.status = .running)
    (h : exec i s = .next t) : t.status ≠ .faulted := by
  obtain rfl := exec_eq_next_iff.1 h
  obtain hst | hst := (effectOf i).run_status hrom
  · simp [hst]
  · simp [hst, hrun]

end Sys2Proof.Machine
end

section
/-! ## The step, by the word its CPU fetches -/

namespace Sys2Proof.Machine

theorem cpuStep_of_decode {s : State} {i : Instr} (hrun : s.status = .running)
    (h : decode s.params.decodePolicy (fetch s) = .ok i) : cpuStep s = exec i s := by
  simp only [cpuStep, hrun, h]

theorem step_of_decode {s : State} {i : Instr} (hlive : s.Live) (hrun : (devicePhase s).status = .running)
    (h : decode (devicePhase s).params.decodePolicy (fetch (devicePhase s)) = .ok i) :
    step s = mapNext State.countCycle (exec i (devicePhase s)) := by
  rw [step_live hlive, cycle, cpuStep_of_decode hrun h]

end Sys2Proof.Machine
end

section
/-! ## The obligations of the family -/

open Sys2Proof Sys2Proof.Machine

/-- Settles O12: no instruction's effect faults when stores store, so a CPU step that ends faulted is the failed decode
of its three ways. -/
theorem onlyDecodingFaults : Obligations.OnlyDecodingFaults := by
  refine ⟨fun i s hrom hrun => ?_, fun s t hrom hrun h hfault => ?_⟩
  · obtain ⟨t, ht⟩ := exec_next i s
    exact ⟨t, ht, exec_not_faulted hrom hrun ht⟩
  · obtain ⟨hstop, -⟩ | ⟨i, -, -, hi⟩ | ⟨e, -, he, ht⟩ := cpuStep_cases h
    · exact absurd hrun hstop
    · exact absurd hfault (exec_not_faulted hrom hrun hi)
    · exact ⟨⟨e, he⟩, ht⟩

/-- Settles O47, by the instruction's effect: only one that writes the bus changes memory or puts out a dump. -/
theorem instructionsLeaveTheEngine : Obligations.InstructionsLeaveTheEngine := by
  intro i s t h
  obtain rfl := exec_eq_next_iff.1 h
  obtain ⟨hdev, hcyc, hph, hpar⟩ := (effectOf i).run_engine s
  refine ⟨hdev, hcyc, hph, hpar, (effectOf i).run_events s, ?_⟩
  cases he : (effectOf i).stores with
  | false => exact .inl (Effect.run_mem he s)
  | true => exact .inr (effectOf_stores he)

/-- Settles O8: a live state's step is a cycle, and with no device its device phase does nothing. -/
theorem stepRunsTheDecodedInstruction : Obligations.StepRunsTheDecodedInstruction := by
  refine ⟨fun s i hlive hrun hdec => step_of_decode hlive hrun hdec, fun s i hlive hdev hdec => ?_⟩
  have hphase := devicePhase_none s hdev
  have ⟨_, hrun, _⟩ := hlive
  have hstep := step_of_decode (i := i) hlive (hphase.symm ▸ hrun) (hphase.symm ▸ hdec)
  rwa [hphase] at hstep

/-- Settles O10: `Step()` does something only when `Running` (R159). -/
theorem stoppedCpuStepDoesNothing : Obligations.StoppedCpuStepDoesNothing := fun _ => cpuStep_of_stopped

/-- Settles O57: the zero extension keeps the value, which 8 bits bound. -/
theorem operandValues : Obligations.OperandValues := by
  refine fun s => ⟨fun r => rfl, fun i => ?_⟩
  have hvalue : (operandValue (.imm i) s).toNat = i.toNat := zext16_toNat i
  exact ⟨hvalue, hvalue ▸ Nat.le_of_lt_succ i.isLt⟩

end

/-! # The family of 41_system.md: `NOP`, `HALT`, and the words that are no instruction -/

section
/-! ## The words that raise `InvalidInstruction` under `strict` (R107, R240, R241) -/

namespace Sys2Proof.Machine

/-- A running CPU that fetches a word which is no instruction takes the fault (R152). -/
theorem cpuStep_of_decode_error {s : State} {e : Malformed} (hrun : s.status = .running)
    (h : decode s.params.decodePolicy (fetch s) = .error e) :
    cpuStep s = .next (takeFault (.invalidInstruction (fetch s) s.pc) s) := by
  simp only [cpuStep, hrun, h]

theorem raisesInvalidInstruction_of_not_wellFormed {w : Word} (hw : ¬ wellFormed w = true) :
    RaisesInvalidInstruction w := by
  intro s hrun hpolicy hfetch
  have herror : decode s.params.decodePolicy (fetch s) = .error (malformation w) := by
    rw [hpolicy, hfetch]
    exact if_neg hw
  exact ⟨_, cpuStep_of_decode_error hrun herror, rfl, rfl, rfl, rfl, rfl⟩

/-- A word whose fields name an instruction, but which is not that instruction's word, has a bit set which the
instruction does not use. -/
theorem raisesInvalidInstruction_of_ne_encode {w : Word} {i : Instr} (hi : instrOfFields (decodeFields w) = i)
    (hne : w ≠ encode i) : RaisesInvalidInstruction w :=
  raisesInvalidInstruction_of_not_wellFormed fun hw => hne (hi ▸ (encode_instrOfFields hw).symm)

theorem encodedAs_iff {i : Instr} {n : Nat} : EncodedAs i n ↔ (encode i).toNat = n :=
  and_iff_left (decode_encode .strict i)

end Sys2Proof.Machine
end

section
/-! ## The two instructions without operands (R105) -/

namespace Sys2Proof

theorem instrOfFields_of_op_nop {f : Fields} (h : f.op = Mnemonic.NOP.opcode) : instrOfFields f = .nop := by
  rw [instrOfFields, h]
  rfl

theorem instrOfFields_of_op_halt {f : Fields} (h : f.op = Mnemonic.HALT.opcode) : instrOfFields f = .halt := by
  rw [instrOfFields, h]
  rfl

end Sys2Proof
end

section
/-! ## The obligations of the family -/

open Sys2Proof Sys2Proof.Machine

/-- Settles O22: every word of opcode 0 names `NOP`, whose only word is zero, and `NOP` is the normal advance (R155). -/
theorem nopOnlyAdvances : Obligations.NopOnlyAdvances := by
  refine ⟨encodedAs_iff.2 rfl, fun w hop hne => ?_, fun s => ⟨s.advance, rfl, ?_⟩⟩
  · exact raisesInvalidInstruction_of_ne_encode (instrOfFields_of_op_nop hop) hne
  · exact ⟨rfl, fun _ _ => rfl, rfl, rfl, fun _ => rfl, rfl, rfl, rfl, rfl, rfl⟩

/-- Settles O23: every word of opcode 1 names `HALT`, whose only word is 0x1000, and `HALT` writes the status alone. -/
theorem haltStopsInPlace : Obligations.HaltStopsInPlace := by
  refine ⟨encodedAs_iff.2 rfl, fun w hop hne => ?_, fun s => ⟨s.setStatus .halted, rfl, ?_⟩⟩
  · exact raisesInvalidInstruction_of_ne_encode (instrOfFields_of_op_halt hop) hne
  · exact ⟨rfl, rfl, fun _ _ => rfl, rfl, fun _ => rfl, rfl, rfl, rfl, rfl, rfl⟩

end

/-! # The family of 42_move.md: `MW`, `MWL` and `MWH` -/

section
/-! ## The frame of an instruction that writes one register -/

namespace Sys2Proof.Machine

/-- Everything but a register and `pc` is as before, and `pc` is `n` words further on. -/
def WritesOnlyReg (d : Reg) (n : Word) (s t : State) : Prop :=
  KeepsRegsBut [d] s t ∧ t.pc = s.pc + n ∧ t.sp = s.sp ∧ t.status = s.status ∧ KeepsMemory s t ∧ KeepsEngine s t

/-- A register written, then the normal advance (R155). -/
theorem writesOnlyReg_setReg_advance (d : Reg) (v : Word) (s : State) :
    WritesOnlyReg d 1 s (s.setReg d v).advance := by
  refine ⟨fun r hr => ?_, rfl, rfl, rfl, fun _ => rfl, rfl, rfl, rfl, rfl, rfl⟩
  exact (s.setReg_reg d r v).trans (if_neg (List.ne_of_not_mem_cons hr))

theorem WritesOnlyReg.trans {d : Reg} {m n : Word} {s t u : State} (hst : WritesOnlyReg d m s t)
    (htu : WritesOnlyReg d n t u) : WritesOnlyReg d (m + n) s u := by
  obtain ⟨hreg, hpc, hsp, hstatus, hmem, hdev, hcyc, hph, hev, hpar⟩ := hst
  obtain ⟨hreg', hpc', hsp', hstatus', hmem', hdev', hcyc', hph', hev', hpar'⟩ := htu
  exact ⟨fun r hr => (hreg' r hr).trans (hreg r hr), by rw [hpc', hpc, BitVec.add_assoc], hsp'.trans hsp,
    hstatus'.trans hstatus, fun a => (hmem' a).trans (hmem a), hdev'.trans hdev, hcyc'.trans hcyc, hph'.trans hph,
    hev'.trans hev, hpar'.trans hpar⟩

theorem setReg_advance_reg (d : Reg) (v : Word) (s : State) : (s.setReg d v).advance.reg d = v :=
  (s.setReg_reg d d v).trans (if_pos rfl)

theorem moveTo_reg_dest (d : Reg) (o : Operand) (s : State) : (moveTo d o s).reg d = operandValue o s :=
  setReg_advance_reg d _ s

theorem moveTo_writesOnlyReg (d : Reg) (o : Operand) (s : State) : WritesOnlyReg d 1 s (moveTo d o s) :=
  writesOnlyReg_setReg_advance d _ s

theorem moveTo_self (d : Reg) (s : State) : moveTo d (.reg d) s = s.advance :=
  congrArg (fun f => ({ s with regs := f } : State).advance) (s.regs.set_get d)

end Sys2Proof.Machine
end

section
/-! ## `MWL` and `MWH`: the half they write put together with the half they keep (R181, R182) -/

namespace Sys2Proof.Machine

theorem zext16_eq_append (i : Byte) : zext16 i = 0#8 ++ i := BitVec.setWidth_eq_append (by decide)

theorem zext16_shiftLeft_eight (i : Byte) : zext16 i <<< 8 = i ++ 0#8 := by
  have hshift : (0#8 ++ i) <<< 8 = (0#8 ++ i).extractLsb' 0 8 ++ 0#8 := BitVec.shiftLeft_eq_concat_of_lt (by decide)
  rw [zext16_eq_append, hshift, BitVec.extractLsb'_append_eq_right]

theorem highByte_append_lowByte (w : Word) : w.extractLsb' 8 8 ++ w.extractLsb' 0 8 = w := wordOfBytes_bytes w

theorem lowByte_replaced (w : Word) (i : Byte) : (w &&& 0xFF00#16) ||| zext16 i = w.extractLsb' 8 8 ++ i := by
  have hmask : 0xFF00#16 = BitVec.allOnes 8 ++ 0#8 := by decide
  have hkept : w &&& 0xFF00#16 = w.extractLsb' 8 8 ++ 0#8 := by
    calc w &&& 0xFF00#16
        = (w.extractLsb' 8 8 ++ w.extractLsb' 0 8) &&& (BitVec.allOnes 8 ++ 0#8) := by rw [highByte_append_lowByte, hmask]
      _ = w.extractLsb' 8 8 ++ 0#8 := by rw [BitVec.and_append, BitVec.and_allOnes, BitVec.and_zero]
  rw [hkept, zext16_eq_append, BitVec.or_append, BitVec.or_zero, BitVec.zero_or]

theorem highByte_replaced (w : Word) (i : Byte) :
    (w &&& 0x00FF#16) ||| (zext16 i <<< 8) = i ++ w.extractLsb' 0 8 := by
  have hmask : 0x00FF#16 = 0#8 ++ BitVec.allOnes 8 := by decide
  have hkept : w &&& 0x00FF#16 = 0#8 ++ w.extractLsb' 0 8 := by
    calc w &&& 0x00FF#16
        = (w.extractLsb' 8 8 ++ w.extractLsb' 0 8) &&& (0#8 ++ BitVec.allOnes 8) := by rw [highByte_append_lowByte, hmask]
      _ = 0#8 ++ w.extractLsb' 0 8 := by rw [BitVec.and_append, BitVec.and_allOnes, BitVec.and_zero]
  rw [hkept, zext16_shiftLeft_eight, BitVec.or_append, BitVec.or_zero, BitVec.zero_or]

theorem exec_mwl (i : Byte) (s : State) :
    exec (.mwl i) s = .next (s.setReg .HL ((s.reg .HL).extractLsb' 8 8 ++ i)).advance := by
  rw [← lowByte_replaced]
  rfl

theorem exec_mwh (i : Byte) (s : State) :
    exec (.mwh i) s = .next (s.setReg .HL (i ++ (s.reg .HL).extractLsb' 0 8)).advance := by
  rw [← highByte_replaced]
  rfl

/-- Two instructions that each write `HL` and advance: the second write is the one that stays. -/
theorem loadHL_of_exec {i j : Instr} {v w : Word} {s : State} (hi : exec i s = .next (s.setReg .HL w).advance)
    (hj : ∀ t : State, t.reg .HL = w → exec j t = .next (t.setReg .HL v).advance) : LoadHL i j v s :=
  ⟨_, _, hi, hj _ (setReg_advance_reg .HL w s), setReg_advance_reg .HL v _,
    (writesOnlyReg_setReg_advance .HL w s).trans (writesOnlyReg_setReg_advance .HL v _)⟩

theorem loadHL_mwh_mwl (hi lo : Byte) (s : State) : LoadHL (.mwh hi) (.mwl lo) (hi ++ lo) s := by
  refine loadHL_of_exec (exec_mwh hi s) fun t ht => ?_
  rw [exec_mwl, ht, BitVec.extractLsb'_append_eq_left]

theorem loadHL_mwl_mwh (hi lo : Byte) (s : State) : LoadHL (.mwl lo) (.mwh hi) (hi ++ lo) s := by
  refine loadHL_of_exec (exec_mwl lo s) fun t ht => ?_
  rw [exec_mwh, ht, BitVec.extractLsb'_append_eq_right]

end Sys2Proof.Machine
end

section
/-! ## The words that an immediate-only mnemonic leaves without an instruction (R104, R107, R240) -/

namespace Sys2Proof.Machine

theorem unusedFields_immediateOnly {m : Mnemonic} {mode : Bool} {u : Unused} (hm : m.shape = .immediateOnly)
    (hu : unusedFields m mode = some u) : mode = true ∧ u.reg1 = true := by
  cases m with
  | MWL | MWH =>
    cases mode with
    | false => cases hu
    | true => cases hu; exact ⟨rfl, rfl⟩
  | _ => cases hm

/-- The form with `mode = 1` is the only one, and it has no use for `reg1`. -/
theorem raisesInvalidInstruction_of_immediateOnly {w : Word} {m : Mnemonic} (hm : m.shape = .immediateOnly)
    (hop : (decodeFields w).op = m.opcode) (h : (decodeFields w).mode = false ∨ (decodeFields w).reg1 ≠ 0) :
    RaisesInvalidInstruction w := by
  refine raisesInvalidInstruction_of_not_wellFormed fun hw => ?_
  obtain ⟨u, hu, hreg1, -⟩ := (wellFormed_iff w).1 hw
  rw [hop, Mnemonic.ofOpcode_opcode] at hu
  obtain ⟨hmode, hunused⟩ := unusedFields_immediateOnly hm hu
  obtain hregForm | hset := h
  · exact absurd hmode (hregForm ▸ Bool.false_ne_true)
  · exact hset (hreg1 hunused)

end Sys2Proof.Machine
end

section
/-! ## The obligations of the family -/

open Sys2Proof Sys2Proof.Machine

/-- Settles O24: both forms are one register write and the normal advance; the corner cases are its instances. -/
theorem moveWord : Obligations.MoveWord := by
  refine ⟨fun d r => encodedAs_iff.2 (encodeRegFields_toNat _ _ _),
    fun d i => encodedAs_iff.2 (encodeImmFields_toNat _ _ _),
    fun s d => ⟨fun r => ⟨_, rfl, moveTo_reg_dest d (.reg r) s, moveTo_writesOnlyReg d _ s⟩,
      fun i => ⟨_, rfl, moveTo_reg_dest d (.imm i) s, moveTo_writesOnlyReg d _ s⟩⟩,
    fun s d i => ⟨_, rfl, (congrArg BitVec.toNat (moveTo_reg_dest d (.imm i) s)).trans (zext16_toNat i)⟩,
    fun s d => ⟨moveTo d (.reg d) s, rfl, fun r _ => ?_⟩,
    fun s => ⟨moveTo .FLAG (.imm 1) s, rfl, ?_⟩,
    fun s d => ⟨_, rfl, moveTo_reg_dest d (.reg .FLAG) s⟩,
    fun s => ⟨decode_encode .strict (.mwImm .A 5), _, rfl, moveTo_reg_dest .A (.imm 5) s⟩,
    fun s => ⟨decode_encode .strict (.mwReg .HL .C), _, rfl, moveTo_reg_dest .HL (.reg .C) s⟩⟩
  · rw [moveTo_self, State.advance_reg]
  · have hflag : (moveTo .FLAG (.imm 1) s).reg .FLAG = 1 := moveTo_reg_dest .FLAG (.imm 1) s
    simp only [State.flagZ, State.flagN, State.flagC, hflag]
    decide

/-- Settles O25: `MWL` joins the high byte that `HL` held and the immediate. -/
theorem moveLowByte : Obligations.MoveLowByte := by
  refine ⟨fun i => encodedAs_iff.2 (encodeImmFields_toNat _ _ _),
    fun w hop => raisesInvalidInstruction_of_immediateOnly (m := .MWL) rfl hop,
    fun i s => ⟨_, exec_mwl i s, ?_, ?_, writesOnlyReg_setReg_advance .HL _ s⟩,
    fun i s hi => ⟨_, exec_mwl i s, (setReg_advance_reg .HL _ s).trans ?_⟩,
    fun s hs => ⟨decode_encode .strict (.mwl 0x10), _, exec_mwl 0x10 s, (setReg_advance_reg .HL _ s).trans ?_⟩⟩
  · rw [setReg_advance_reg, BitVec.extractLsb'_append_eq_right]
  · rw [setReg_advance_reg, BitVec.extractLsb'_append_eq_left]
  · rw [← hi, highByte_append_lowByte]
  · rw [hs]
    rfl

/-- Settles O26: `MWH` joins the immediate and the low byte that `HL` held. -/
theorem moveHighByte : Obligations.MoveHighByte := by
  refine ⟨fun i => encodedAs_iff.2 (encodeImmFields_toNat _ _ _),
    fun w hop => raisesInvalidInstruction_of_immediateOnly (m := .MWH) rfl hop,
    fun i s => ⟨_, exec_mwh i s, ?_, ?_, writesOnlyReg_setReg_advance .HL _ s⟩⟩
  · rw [setReg_advance_reg, BitVec.extractLsb'_append_eq_left]
  · rw [setReg_advance_reg, BitVec.extractLsb'_append_eq_right]

/-- Settles O27: each half keeps the other, so the order does not matter; the words of `@label` are the two halves of
the address, which together are the address. -/
theorem twoHalvesLoadHL : Obligations.TwoHalvesLoadHL := by
  refine ⟨fun hi lo s => ⟨loadHL_mwh_mwl hi lo s, loadHL_mwl_mwh hi lo s⟩, fun addr s =>
    ⟨_, _, _, _, rfl, decode_encode .strict _, decode_encode .strict _, ?_⟩⟩
  have hload := loadHL_mwh_mwl (addr.extractLsb' 8 8) (addr.extractLsb' 0 8) s
  rwa [highByte_append_lowByte] at hload

end

/-! # The family of 43_load_store.md: `LW` and `SW` -/

section
/-! ## The frames of a load and of a store, for either form's operand (R153, R155) -/

namespace Sys2Proof.Machine

theorem zext16_lt_256 (i : Byte) : (zext16 i).toNat < 256 := zext16_toNat i ▸ i.isLt

theorem loadWord_writesOnlyReg (d : Reg) (o : Operand) (s : State) : WritesOnlyReg d 1 s (loadWord d o s) :=
  writesOnlyReg_setReg_advance d _ s

theorem poke_memRead_same {s : State} (hwf : s.mem.wf = true) (a v : Word) : (s.poke a v).memRead a = v :=
  (Memory.read_write hwf a v a).trans (if_pos rfl)

theorem poke_keepsMemoryBut {s : State} (hwf : s.mem.wf = true) (a v : Word) : KeepsMemoryBut a s (s.poke a v) :=
  fun c hc => (Memory.read_write hwf a v c).trans (if_neg hc)

/-- One word of memory is written and everything else but `pc` is as before; `pc` is one word further on, and a word
written there is the one the next fetch reads (R191, R77). -/
def WritesOnlyWord (a v : Word) (s t : State) : Prop :=
  t.memRead a = v ∧ KeepsMemoryBut a s t ∧ KeepsRegsBut [] s t ∧ t.pc = s.pc + 1 ∧ t.sp = s.sp ∧
    t.status = s.status ∧ KeepsEngine s t ∧ (a = s.pc + 1 → fetch t = v)

theorem writesOnlyWord_poke_advance {s : State} (hwf : s.mem.wf = true) (a v : Word) :
    WritesOnlyWord a v s (s.poke a v).advance := by
  have hread : (s.poke a v).advance.memRead a = v := poke_memRead_same hwf a v
  refine ⟨hread, poke_keepsMemoryBut hwf a v, fun _ _ => rfl, rfl, rfl, rfl, ⟨rfl, rfl, rfl, rfl, rfl⟩, fun ha => ?_⟩
  calc (s.poke a v).advance.memRead (s.pc + 1)
      = (s.poke a v).advance.memRead a := by rw [ha]
    _ = v := hread

theorem storeWord_writesOnlyWord {s : State} {o : Operand} (hwf : s.mem.wf = true)
    (h : s.Storable (operandValue o s)) (src : Reg) :
    WritesOnlyWord (operandValue o s) (s.reg src) s (storeWord o src s) := by
  rw [storeWord_of_storable h]
  exact writesOnlyWord_poke_advance hwf _ _

end Sys2Proof.Machine
end

section
/-! ## The obligations of the family -/

open Sys2Proof Sys2Proof.Machine

/-- Settles O28: both forms read memory before the one register write, so the word loaded is the one that was there
whatever the destination. -/
theorem loadWord : Obligations.LoadWord := by
  refine ⟨fun d a => encodedAs_iff.2 (encodeRegFields_toNat _ _ _),
    fun d i => encodedAs_iff.2 (encodeImmFields_toNat _ _ _),
    fun s d => ⟨fun a => ⟨_, rfl, loadWord_reg d (.reg a) s, loadWord_writesOnlyReg d _ s⟩,
      fun i => ⟨_, rfl, loadWord_reg d (.imm i) s, loadWord_writesOnlyReg d _ s⟩⟩,
    zext16_lt_256, ⟨decode_encode .strict (.lwReg .B .HL), decode_encode .strict (.lwImm .A 0x10)⟩,
    fun s hmem hHL => ⟨_, rfl, ?_⟩⟩
  calc (Machine.loadWord .B (.reg .HL) s).reg .B
      = s.memRead (s.reg .HL) := loadWord_reg .B (.reg .HL) s
    _ = 0x1234 := by rw [hHL, hmem]

/-- Settles O29: where a store stores, both forms write the one word and advance; the example is the register form's
instance at 0xC000. -/
theorem storeWord : Obligations.StoreWord := by
  refine ⟨fun a r => encodedAs_iff.2 (encodeRegFields_toNat _ _ _),
    fun i r => encodedAs_iff.2 (encodeImmFields_toNat _ _ _),
    fun s src hwf => ⟨fun a h => ⟨_, rfl, storeWord_writesOnlyWord (o := .reg a) hwf h src⟩,
      fun i h => ⟨_, rfl, storeWord_writesOnlyWord (o := .imm i) hwf h src⟩⟩,
    zext16_lt_256, ⟨decode_encode .strict (.swReg .HL .A), decode_encode .strict (.swImm 0x20 .B)⟩,
    fun s hwf hrom hA hHL => ⟨_, rfl, ?_⟩⟩
  obtain ⟨hread, -⟩ := storeWord_writesOnlyWord (o := .reg .HL) hwf (.inl hrom) .A
  calc (Machine.storeWord (.reg .HL) .A s).memRead 0xC000
      = (Machine.storeWord (.reg .HL) .A s).memRead (s.reg .HL) := by rw [hHL]
    _ = s.reg .A := hread
    _ = 0x000C := hA

end

/-! # The family of 44_alu.md: `ADD`, `SUB`, `AND`, `ADDC` and `NOT` -/

section
/-! ## The words of an instruction with a destination and a variable operand (R200) -/

namespace Sys2Proof.Machine

theorem encodedAs_regForm (m : Mnemonic) {i : Instr} {d r : Reg}
    (h : encode i = encodeRegFields m.opcode d.index r.index) :
    EncodedAs i (m.opcode.toNat * 4096 + (d.index.toNat * 256 + r.index.toNat * 32)) := by
  rw [encodedAs_iff, h, encodeRegFields_toNat, Nat.add_assoc]

theorem encodedAs_immForm (m : Mnemonic) {i : Instr} {d : Reg} {k : Byte}
    (h : encode i = encodeImmFields m.opcode d.index k) :
    EncodedAs i (m.opcode.toNat * 4096 + 2048 + (d.index.toNat * 256 + k.toNat)) := by
  rw [encodedAs_iff, h, encodeImmFields_toNat, Nat.add_assoc (m.opcode.toNat * 4096 + 2048)]

end Sys2Proof.Machine
end

section
/-! ## The effect of each operation, for either form's operand (R201 to R205) -/

namespace Sys2Proof.Machine

/-- Both forms of an instruction complete as one operation on the variable operand does (R153). -/
theorem forBothForms_completes {s : State} {regForm : Reg → Instr} {immForm : Byte → Instr}
    {post : Word → State → Prop} {run : Operand → State} (hreg : ∀ r, exec (regForm r) s = .next (run (.reg r)))
    (himm : ∀ i, exec (immForm i) s = .next (run (.imm i))) (hpost : ∀ o, post (operandValue o s) (run o)) :
    ForBothForms s regForm immForm fun i y => Completes i s (post y) :=
  ⟨fun r => ⟨_, hreg r, hpost (.reg r)⟩, fun i => ⟨_, himm i, hpost (.imm i)⟩⟩

theorem addInto_effect (d : Reg) (o : Operand) (cin : Bool) (s : State) :
    AluEffect d (s.reg d + operandValue o s + (if cin = true then 1 else 0))
      (some (decide (0xFFFF < (s.reg d).toNat + (operandValue o s).toNat + (if cin = true then 1 else 0)))) s
      (addInto d o cin s) := by
  rw [← trunc16_exactSum, ← carryOut_exactSum]
  exact aluWrite_effect d _ _ s

/-- `ADD` is the sum without a carry-in (R201). -/
theorem addInto_effect_noCarry (d : Reg) (o : Operand) (s : State) :
    AluEffect d (s.reg d + operandValue o s)
      (some (decide (0xFFFF < (s.reg d).toNat + (operandValue o s).toNat))) s (addInto d o false s) := by
  simpa using addInto_effect d o false s

theorem subFrom_effect (d : Reg) (o : Operand) (s : State) :
    AluEffect d (s.reg d - operandValue o s) (some (decide ((s.reg d).toNat < (operandValue o s).toNat))) s
      (subFrom d o s) :=
  aluWrite_effect d _ _ s

theorem andInto_effect (d : Reg) (o : Operand) (s : State) :
    AluEffect d (s.reg d &&& operandValue o s) none s (andInto d o s) :=
  aluWrite_effect d _ _ s

theorem notInto_effect (d : Reg) (o : Operand) (s : State) :
    AluEffect d (~~~(operandValue o s)) none s (notInto d o s) :=
  aluWrite_effect d _ _ s

end Sys2Proof.Machine
end

section
/-! ## What a program reads after an ALU instruction whose destination is not `FLAG` -/

namespace Sys2Proof.Machine

section
variable {d : Reg} {r : Word} {carry : Option Bool} {s t : State}

theorem AluEffect.reg_dest (h : AluEffect d r carry s t) (hd : d ≠ .FLAG) : t.reg d = r := by
  obtain ⟨hreg, -⟩ := h
  exact (hreg d hd).trans (if_pos rfl)

theorem AluEffect.reg_other (h : AluEffect d r carry s t) {x : Reg} (hx : x ≠ .FLAG) (hxd : x ≠ d) :
    t.reg x = s.reg x := by
  obtain ⟨hreg, -⟩ := h
  exact (hreg x hx).trans (if_neg hxd)

/-- The old Carry stays where the instruction writes none. -/
theorem AluEffect.flagC (h : AluEffect d r carry s t) (hd : d ≠ .FLAG) : t.flagC = carry.getD s.flagC := by
  obtain ⟨-, hflag, -⟩ := h
  simpa [State.flagC, hd] using hflag 2 (by decide)

end

theorem flagC_moveTo_flag_four (s : State) : (moveTo .FLAG (.imm 4) s).flagC = true := by
  have hflag : (moveTo .FLAG (.imm 4) s).reg .FLAG = 4 := moveTo_reg_dest .FLAG (.imm 4) s
  rw [State.flagC, hflag]
  decide

theorem moveTo_reg_other {d x : Reg} (hx : x ≠ d) (o : Operand) (s : State) : (moveTo d o s).reg x = s.reg x := by
  obtain ⟨hreg, -⟩ := moveTo_writesOnlyReg d o s
  exact hreg x (List.not_mem_cons_of_ne_of_not_mem hx List.not_mem_nil)

end Sys2Proof.Machine
end

section
/-! ## Subtraction as the sum with the complement and a carry-in (R206) -/

namespace Sys2Proof.Machine

theorem not_eq_65535_sub (y : Word) : ~~~y = 65535 - y := (BitVec.allOnes_sub_eq_not y).symm

theorem toNat_65535_sub (y : Word) : (65535 - y).toNat = 65535 - y.toNat := by
  rw [← not_eq_65535_sub, BitVec.toNat_not]

theorem add_not_add_one (x y : Word) : x + ~~~y + 1 = x - y := by
  rw [BitVec.sub_eq_add_neg, BitVec.neg_eq_not_add, BitVec.add_assoc]
  rfl

/-- The exact sum `x + (65535 - y) + 1` is `65536 + x - y`. -/
theorem carry_add_not_add_one (x y : Word) :
    decide (0xFFFF < x.toNat + (~~~y).toNat + 1) = !decide (x.toNat < y.toNat) := by
  have hy := y.isLt
  rw [not_eq_65535_sub, toNat_65535_sub, ← decide_not, decide_eq_decide]
  omega

/-- After `MW FLAG, 4` and `NOT q, r`, the inputs of `ADDC d, q` are the old `d`, the complement of `r`, and a set
Carry. -/
theorem addInto_complement {s v : State} {d r q : Reg} (hd : d ≠ .FLAG) (hreg : v.reg d = s.reg d)
    (hq : v.reg q = ~~~(s.reg r)) (hcarry : v.flagC = true) :
    (addInto d (.reg q) v.flagC v).reg d = (subFrom d (.reg r) s).reg d ∧
      (addInto d (.reg q) v.flagC v).flagC = !(subFrom d (.reg r) s).flagC := by
  have hsum := addInto_effect d (.reg q) v.flagC v
  have hsub := subFrom_effect d (.reg r) s
  simp only [operandValue, hreg, hq, hcarry, if_true] at hsum hsub ⊢
  rw [hsum.reg_dest hd, hsub.reg_dest hd, hsum.flagC hd, hsub.flagC hd]
  exact ⟨add_not_add_one _ _, carry_add_not_add_one _ _⟩

end Sys2Proof.Machine
end

section
/-! ## The obligations of the family -/

open Sys2Proof Sys2Proof.Machine

/-- Settles O33: each word is the packing of its form's fields. -/
theorem aluEncodings : Obligations.AluEncodings := fun _ _ _ =>
  ⟨encodedAs_regForm .ADD rfl, encodedAs_immForm .ADD rfl, encodedAs_regForm .SUB rfl, encodedAs_immForm .SUB rfl,
    encodedAs_regForm .AND rfl, encodedAs_immForm .AND rfl, encodedAs_regForm .ADDC rfl, encodedAs_immForm .ADDC rfl,
    encodedAs_regForm .NOT rfl, encodedAs_immForm .NOT rfl⟩

/-- Settles O34: both forms are the sum with carry-in 0. -/
theorem addEffect : Obligations.AddEffect := fun s d =>
  forBothForms_completes (fun _ => rfl) (fun _ => rfl) fun o => addInto_effect_noCarry d o s

/-- Settles O35: both forms are the difference with its borrow. -/
theorem subEffect : Obligations.SubEffect := fun s d =>
  forBothForms_completes (fun _ => rfl) (fun _ => rfl) fun o => subFrom_effect d o s

/-- Settles O36: both forms are the bitwise and, which writes no Carry. -/
theorem andEffect : Obligations.AndEffect := fun s d =>
  forBothForms_completes (fun _ => rfl) (fun _ => rfl) fun o => andInto_effect d o s

/-- Settles O37: both forms are the sum with the Carry read before any write. -/
theorem addcEffect : Obligations.AddcEffect := fun s d =>
  forBothForms_completes (fun _ => rfl) (fun _ => rfl) fun o => addInto_effect d o s.flagC s

/-- Settles O38: the complement is 65535 minus the operand. -/
theorem notEffect : Obligations.NotEffect := fun s d =>
  forBothForms_completes (fun _ => rfl) (fun _ => rfl) fun o =>
    ⟨toNat_65535_sub _, not_eq_65535_sub (operandValue o s) ▸ notInto_effect d o s⟩

/-- Settles O39: each instruction reads what the one before left, so the identities are those of 16-bit arithmetic. -/
theorem arithmeticIdentities : Obligations.ArithmeticIdentities := by
  refine ⟨fun s d r hd hr hdr => ?_, fun s d hd => ?_, fun s d r q hd hr hq hdr hdq hqr => ?_⟩
  · have hadd := addInto_effect_noCarry d (.reg r) s
    refine ⟨_, _, rfl, rfl, ?_⟩
    calc (subFrom d (.reg r) (addInto d (.reg r) false s)).reg d
        = (addInto d (.reg r) false s).reg d - (addInto d (.reg r) false s).reg r := (subFrom_effect d _ _).reg_dest hd
      _ = s.reg d + s.reg r - s.reg r := by rw [hadd.reg_dest hd, hadd.reg_other hr hdr.symm]; rfl
      _ = s.reg d := BitVec.add_sub_cancel _ _
  · refine ⟨_, _, rfl, rfl, ?_⟩
    calc (notInto d (.reg d) (notInto d (.reg d) s)).reg d
        = ~~~((notInto d (.reg d) s).reg d) := (notInto_effect d _ _).reg_dest hd
      _ = ~~~(~~~(s.reg d)) := congrArg (~~~·) ((notInto_effect d (.reg d) s).reg_dest hd)
      _ = s.reg d := BitVec.not_not
  · have hnot := notInto_effect q (.reg r) (moveTo .FLAG (.imm 4) s)
    refine ⟨_, _, _, _, rfl, rfl, rfl, rfl, addInto_complement hd ?_ ?_ ?_⟩
    · exact (hnot.reg_other hd hdq).trans (moveTo_reg_other hd _ s)
    · exact (hnot.reg_dest hq).trans (congrArg (~~~·) (moveTo_reg_other hr _ s))
    · exact (hnot.flagC hq).trans (flagC_moveTo_flag_four s)

end

/-! # The family of 45_jump.md: `JMPZ` and `JMPN` -/

section
/-! ## The words with `reg1` set of a mnemonic that has no use for it (R107, R240) -/

namespace Sys2Proof.Machine

theorem unusedFields_registerOrImmediate {m : Mnemonic} {mode : Bool} {u : Unused}
    (hm : m.shape = .registerOrImmediate) (hu : unusedFields m mode = some u) : u.reg1 = true := by
  cases m with
  | JMPZ | JMPN | PUSH => cases mode <;> cases hu <;> rfl
  | _ => cases hm

/-- Both forms put their one operand in `reg2` or `imm8` and have no use for `reg1`. -/
theorem raisesInvalidInstruction_of_registerOrImmediate {w : Word} {m : Mnemonic}
    (hm : m.shape = .registerOrImmediate) (hop : (decodeFields w).op = m.opcode) (hset : (decodeFields w).reg1 ≠ 0) :
    RaisesInvalidInstruction w := by
  refine raisesInvalidInstruction_of_not_wellFormed fun hw => ?_
  obtain ⟨u, hu, hreg1, -⟩ := (wellFormed_iff w).1 hw
  rw [hop, Mnemonic.ofOpcode_opcode] at hu
  exact hset (hreg1 (unusedFields_registerOrImmediate hm hu))

end Sys2Proof.Machine
end

section
/-! ## The effect of a jump, for either form's operand (R220, R221) -/

namespace Sys2Proof.Machine

/-- `pc` is the target or the next address, by the condition, and everything else is as before. -/
def WritesOnlyPc (taken : Bool) (target : Word) (s t : State) : Prop :=
  t.pc = (if taken = true then target else s.pc + 1) ∧ KeepsRegsBut [] s t ∧ t.sp = s.sp ∧ t.status = s.status ∧
    KeepsMemory s t ∧ KeepsEngine s t

theorem jumpIf_pc_eq (taken : Bool) (o : Operand) (s : State) :
    (jumpIf taken o s).pc = if taken = true then operandValue o s else s.pc + 1 :=
  apply_ite State.pc _ _ _

theorem jumpIf_writesOnlyPc (taken : Bool) (o : Operand) (s : State) :
    WritesOnlyPc taken (operandValue o s) s (jumpIf taken o s) := by
  have keeps {α : Type} (field : State → α) (h : ∀ v, field (s.setPc v) = field s) :
      field (jumpIf taken o s) = field s := jumpIf_keeps field h taken o
  exact ⟨jumpIf_pc_eq taken o s, fun r _ => keeps (State.reg · r) fun _ => rfl, keeps State.sp fun _ => rfl,
    keeps State.status fun _ => rfl, fun a => keeps (State.memRead · a) fun _ => rfl,
    keeps State.devices fun _ => rfl, keeps State.cycles fun _ => rfl, keeps State.phase fun _ => rfl,
    keeps State.events fun _ => rfl, keeps State.params fun _ => rfl⟩

end Sys2Proof.Machine
end

section
/-! ## The obligations of the family -/

open Sys2Proof Sys2Proof.Machine

/-- Settles O40: both forms are the jump on Zero, which writes `pc` alone; the examples are its instances. -/
theorem jumpIfZero : Obligations.JumpIfZero := by
  refine ⟨fun _ => encodedAs_iff.2 (encodeRegFields_toNat _ _ _),
    fun _ => encodedAs_iff.2 (encodeImmFields_toNat _ _ _),
    fun _ hop => raisesInvalidInstruction_of_registerOrImmediate (m := .JMPZ) rfl hop,
    fun s => forBothForms_completes (fun _ => rfl) (fun _ => rfl) fun o => jumpIf_writesOnlyPc s.flagZ o s,
    zext16_lt_256, ⟨decode_encode .strict (.jmpzImm 7), decode_encode .strict (.jmpzReg .HL)⟩,
    fun s hpc => ⟨_, rfl, ?_⟩, fun s hHL hzero => ⟨_, rfl, ?_⟩⟩
  · calc (jumpIf s.flagZ (.imm 7) s).pc
        = if s.flagZ = true then 7 else s.pc + 1 := jumpIf_pc_eq _ (.imm 7) s
      _ = if s.flagZ = true then 7 else 5 := by rw [hpc]; rfl
  · calc (jumpIf s.flagZ (.reg .HL) s).pc
        = s.reg .HL := (jumpIf_pc_eq _ _ s).trans (if_pos hzero)
      _ = 0x0200 := hHL

/-- Settles O41: both forms are the jump on Negative, which is bit 1 of `FLAG` (R25). -/
theorem jumpIfNegative : Obligations.JumpIfNegative :=
  ⟨fun _ => encodedAs_iff.2 (encodeRegFields_toNat _ _ _),
    fun _ => encodedAs_iff.2 (encodeImmFields_toNat _ _ _),
    fun _ hop => raisesInvalidInstruction_of_registerOrImmediate (m := .JMPN) rfl hop,
    fun s => forBothForms_completes (fun _ => rfl) (fun _ => rfl) fun o => jumpIf_writesOnlyPc s.flagN o s⟩

end

/-! # The family of 46_stack.md: `PUSH` and `POP` -/

section
/-! ## The words that the register-only mnemonic leaves without an instruction (R104, R107, R240) -/

namespace Sys2Proof.Machine

theorem unusedFields_registerOnly {m : Mnemonic} {mode : Bool} {u : Unused} (hm : m.shape = .registerOnly)
    (hu : unusedFields m mode = some u) : mode = false ∧ u.reg2 = true ∧ u.low = true := by
  cases m with
  | POP =>
    cases mode with
    | false => cases hu; exact ⟨rfl, rfl, rfl⟩
    | true => cases hu
  | _ => cases hm

/-- The form with `mode = 0` is the only one, and it has no use for the low byte. -/
theorem raisesInvalidInstruction_of_registerOnly {w : Word} {m : Mnemonic} (hm : m.shape = .registerOnly)
    (hop : (decodeFields w).op = m.opcode) (h : (decodeFields w).mode = true ∨ (decodeFields w).imm8 ≠ 0) :
    RaisesInvalidInstruction w := by
  refine raisesInvalidInstruction_of_not_wellFormed fun hw => ?_
  obtain ⟨u, hu, -, hreg2, hlow⟩ := (wellFormed_iff w).1 hw
  rw [hop, Mnemonic.ofOpcode_opcode] at hu
  obtain ⟨hmode, hunused, hunusedLow⟩ := unusedFields_registerOnly hm hu
  obtain himmForm | hset := h
  · exact Bool.false_ne_true (hmode.symm.trans himmForm)
  · exact hset ((imm8_eq_zero_iff w).2 ⟨hreg2 hunused, hlow hunusedLow⟩)

end Sys2Proof.Machine
end

section
/-! ## The effects of a push and of a pop (R230, R231) -/

namespace Sys2Proof.Machine

/-- `sp` is one lower and the word there is the one pushed; everything else but `pc` is as before. -/
def PushesWord (v : Word) (s t : State) : Prop :=
  t.sp = s.sp - 1 ∧ t.memRead (s.sp - 1) = v ∧ KeepsMemoryBut (s.sp - 1) s t ∧ KeepsRegsBut [] s t ∧
    t.pc = s.pc + 1 ∧ t.status = s.status ∧ KeepsEngine s t

/-- The word at `sp` is in the destination and `sp` is one higher; everything else but `pc` is as before. -/
def PopsWord (d : Reg) (s t : State) : Prop :=
  t.reg d = s.memRead s.sp ∧ t.sp = s.sp + 1 ∧ KeepsRegsBut [d] s t ∧ t.pc = s.pc + 1 ∧ t.status = s.status ∧
    KeepsMemory s t ∧ KeepsEngine s t

theorem pushValue_of_storable {s : State} (h : s.Storable (s.sp - 1)) (o : Operand) :
    pushValue o s = ((s.poke (s.sp - 1) (operandValue o s)).setSp (s.sp - 1)).advance :=
  busWrite_stores ((canWrite_iff s _).2 h) _ _

theorem pushValue_wf {s : State} (hwf : s.mem.wf = true) (h : s.Storable (s.sp - 1)) (o : Operand) :
    (pushValue o s).mem.wf = true := by
  rw [pushValue_of_storable h]
  exact State.poke_wf hwf _ _

theorem pushValue_pushesWord {s : State} (hwf : s.mem.wf = true) (h : s.Storable (s.sp - 1)) (o : Operand) :
    PushesWord (operandValue o s) s (pushValue o s) := by
  rw [pushValue_of_storable h]
  exact ⟨rfl, poke_memRead_same hwf _ _, poke_keepsMemoryBut hwf _ _, fun _ _ => rfl, rfl, rfl,
    rfl, rfl, rfl, rfl, rfl⟩

theorem popInto_popsWord (d : Reg) (s : State) : PopsWord d s (popInto d s) := by
  obtain ⟨hreg, -⟩ := writesOnlyReg_setReg_advance d (s.memRead s.sp) s
  exact ⟨setReg_advance_reg d _ s, rfl, hreg, rfl, rfl, fun _ => rfl, rfl, rfl, rfl, rfl, rfl⟩

end Sys2Proof.Machine
end

section
/-! ## A pop undoes a push (R232) -/

namespace Sys2Proof.Machine

/-- Whatever has run between a push and a pop, with `sp` and the word at it left as the push left them, the pop takes
the word pushed and restores `sp`. -/
theorem PopsWord.of_pushesWord {v : Word} {r : Reg} {s t t' u : State} (hpush : PushesWord v s t)
    (hsp : t'.sp = t.sp) (hword : t'.memRead t.sp = t.memRead t.sp) (hpop : PopsWord r t' u) :
    u.reg r = v ∧ u.sp = s.sp := by
  obtain ⟨hspPush, hread, -⟩ := hpush
  obtain ⟨hreg, hspPop, -⟩ := hpop
  constructor
  · calc u.reg r
        = t'.memRead t.sp := by rw [hreg, hsp]
      _ = t.memRead (s.sp - 1) := by rw [hword, hspPush]
      _ = v := hread
  · rw [hspPop, hsp, hspPush, BitVec.sub_add_cancel]

theorem keepsRegsBut_of_push_pop {v : Word} {r : Reg} {s t u : State} (hpush : PushesWord v s t)
    (hpop : PopsWord r t u) : KeepsRegsBut [r] s u := by
  obtain ⟨-, -, -, hregs, -⟩ := hpush
  obtain ⟨-, -, hregs', -⟩ := hpop
  exact fun x hx => (hregs' x hx).trans (hregs x List.not_mem_nil)

theorem keepsMemoryBut_of_push_pop {v : Word} {r : Reg} {s t u : State} (hpush : PushesWord v s t)
    (hpop : PopsWord r t u) : KeepsMemoryBut (s.sp - 1) s u := by
  obtain ⟨-, -, hmem, -⟩ := hpush
  obtain ⟨-, -, -, -, -, hmem', -⟩ := hpop
  exact fun a ha => (hmem' a).trans (hmem a ha)

/-- `PUSH x; POP r` for either form's operand. -/
theorem popInto_pushValue {s : State} (hwf : s.mem.wf = true) (h : s.Storable (s.sp - 1)) (o : Operand) (r : Reg) :
    (popInto r (pushValue o s)).reg r = operandValue o s ∧ (popInto r (pushValue o s)).sp = s.sp ∧
      KeepsRegsBut [r] s (popInto r (pushValue o s)) := by
  have hpush := pushValue_pushesWord hwf h o
  have hpop := popInto_popsWord r (pushValue o s)
  obtain ⟨hreg, hsp⟩ := hpop.of_pushesWord hpush rfl rfl
  exact ⟨hreg, hsp, keepsRegsBut_of_push_pop hpush hpop⟩

/-- A push and a pop after another push leave the word of the first one in place: it is not at the address below. -/
theorem PushesWord.nested {v w : Word} {r q : Reg} {s t₁ t₂ t₃ t₄ : State} (hout : PushesWord v s t₁)
    (hin : PushesWord w t₁ t₂) (hpop : PopsWord r t₂ t₃) (hpop' : PopsWord q t₃ t₄) :
    t₃.reg r = w ∧ t₄.reg q = v ∧ t₄.sp = s.sp := by
  obtain ⟨hreg, hsp⟩ := hpop.of_pushesWord hin rfl rfl
  have hbelow : t₁.sp ≠ t₁.sp - 1 := by bv_omega
  exact ⟨hreg, hpop'.of_pushesWord hout hsp (keepsMemoryBut_of_push_pop hin hpop _ hbelow)⟩

/-- The slot of a second push is the second word below `sp`. -/
theorem PushesWord.storable_below {v : Word} {s t : State} (hpush : PushesWord v s t) (h : s.Storable (s.sp - 2)) :
    t.Storable (t.sp - 1) := by
  obtain ⟨hsp, -, -, -, -, -, -, -, -, -, hparams⟩ := hpush
  have hslot : t.sp - 1 = s.sp - 2 := by rw [hsp]; bv_omega
  rwa [State.Storable, hparams, hslot]

end Sys2Proof.Machine
end

section
/-! ## The obligations of the family -/

open Sys2Proof Sys2Proof.Machine

/-- Settles O42: where the stack slot stores, both forms are the one write there, with `sp` moved to it. -/
theorem pushEffect : Obligations.PushEffect :=
  ⟨fun _ => encodedAs_iff.2 (encodeRegFields_toNat _ _ _),
    fun _ => encodedAs_iff.2 (encodeImmFields_toNat _ _ _),
    fun _ hop => raisesInvalidInstruction_of_registerOrImmediate (m := .PUSH) rfl hop,
    fun _ hwf h => forBothForms_completes (fun _ => rfl) (fun _ => rfl) (pushValue_pushesWord hwf h)⟩

/-- Settles O43: the word is read at the old `sp`, and the one register write is the destination's. -/
theorem popEffect : Obligations.PopEffect :=
  ⟨fun _ => encodedAs_iff.2 (encodeRegFields_toNat _ _ _),
    fun _ hop => raisesInvalidInstruction_of_registerOnly (m := .POP) rfl hop,
    fun s d => ⟨_, rfl, popInto_popsWord d s⟩⟩

/-- Settles O44: a pop undoes the push before it, and an inner push and pop leave `sp` and the outer word alone. -/
theorem stackLaw : Obligations.StackLaw := by
  refine ⟨fun s r hwf h => ⟨fun x => ⟨_, _, rfl, rfl, popInto_pushValue hwf h (.reg x) r⟩,
    fun k => ⟨_, _, rfl, rfl, popInto_pushValue hwf h (.imm k) r⟩⟩, fun s a b r q hwf h₁ h₂ => ?_⟩
  have hout : PushesWord (s.reg a) s (pushValue (.reg a) s) := pushValue_pushesWord hwf h₁ (.reg a)
  have hin := pushValue_pushesWord (pushValue_wf hwf h₁ (.reg a)) (hout.storable_below h₂) (.reg b)
  obtain ⟨hr, hq, hsp⟩ := hout.nested hin (popInto_popsWord r _) (popInto_popsWord q _)
  have hb : (pushValue (.reg a) s).reg b = s.reg b := by
    obtain ⟨-, -, -, hregs, -⟩ := hout
    exact hregs b List.not_mem_nil
  exact ⟨_, _, _, _, rfl, rfl, rfl, rfl, hr.trans hb, hq, hsp⟩

end

/-! # The family of 60_exceptions.md: the fault, the protocol engine, and the run loop -/

section
/-! ## What holds after a write of the bus, a service, a device phase (R65, R247, R251) -/

namespace Sys2Proof.Machine

/-- What holds after the store and after the fault holds after a write of the bus. -/
theorem busWrite_of_both {P : State → Prop} {a v : Word} {rest : State → State} {s : State}
    (stored : P (rest (s.poke a v))) (faulted : P (takeFault (.romWrite a s.pc) s)) : P (busWrite a v rest s) := by
  obtain ⟨-, h⟩ | ⟨-, h⟩ := busWrite_cases a v rest s
  · rwa [h]
  · rwa [h]

/-- What the service of each device of a running machine preserves, the device phase preserves. -/
theorem serviceFrom_preserves {P : State → Prop}
    (h : ∀ n d s, s.status = .running → P s → P (serviceDevice n d s).2) (ds : List Device) (n : Nat) {s : State}
    (hs : P s) : P (serviceFrom n ds s).2 := by
  induction ds generalizing n s with
  | nil => exact hs
  | cons d ds ih =>
    by_cases hrun : s.status = .running
    · rw [serviceFrom_running n d ds s hrun]
      exact ih (n + 1) (h n d s hrun hs)
    · rwa [serviceFrom_stopped n (d :: ds) s hrun]

end Sys2Proof.Machine
end

section
/-! ## Memory stays in canonical form along a cycle -/

namespace Sys2Proof.Machine

theorem serviceDevice_wf (n : Nat) (d : Device) {s : State} (hwf : s.mem.wf = true) :
    (serviceDevice n d s).2.mem.wf = true := by
  obtain ⟨-, h⟩ | ⟨-, -, h⟩ | ⟨p, b, -, -, -, h⟩ | ⟨p, b, -, -, -, h⟩ := serviceDevice_cases n d s <;> rw [h]
  · exact hwf
  · exact hwf
  · exact Memory.wf_write hwf p (zext16 b)
  · exact hwf

theorem devicePhase_wf {s : State} (hwf : s.mem.wf = true) : (devicePhase s).mem.wf = true :=
  serviceFrom_preserves (P := (·.mem.wf = true)) (fun n d _ _ => serviceDevice_wf n d) s.devices 0 hwf

theorem Effect.run_wf (e : Effect) {s : State} (hwf : s.mem.wf = true) : (e.run s).mem.wf = true := by
  cases he : e.stores with
  | false => rwa [Effect.run_mem he]
  | true =>
    cases e with
    | store _ _ => exact busWrite_of_both (P := (·.mem.wf = true)) (State.poke_wf hwf _ _) hwf
    | push _ => exact busWrite_of_both (P := (·.mem.wf = true)) (State.poke_wf hwf _ _) hwf
    | next | stop | write _ _ | alu _ _ _ | jump _ _ | pop _ => cases he

theorem cpuStep_wf {s t : State} (hwf : s.mem.wf = true) (h : cpuStep s = .next t) : t.mem.wf = true := by
  obtain ⟨-, rfl⟩ | ⟨i, -, -, hi⟩ | ⟨e, -, -, rfl⟩ := cpuStep_cases h
  · exact hwf
  · exact exec_eq_next_iff.1 hi ▸ (effectOf i).run_wf hwf
  · exact hwf

end Sys2Proof.Machine
end

section
/-! ## The pending flags, the devices and the run loop's place along a cycle (R246, R248, R249) -/

namespace Sys2Proof.Machine

/-- The service of a device of a running machine clears its flag, or ends in the fault of its port write. -/
theorem serviceDevice_cleared_or_faulted (n : Nat) (d : Device) {s : State} (hrun : s.status = .running) :
    ((serviceDevice n d s).1.pending = false ∧ (serviceDevice n d s).2.status = .running) ∨
      (serviceDevice n d s).2.status = .faulted := by
  obtain ⟨hp, h⟩ | ⟨-, -, h⟩ | ⟨p, b, -, -, -, h⟩ | ⟨p, b, -, -, -, h⟩ := serviceDevice_cases n d s <;> rw [h]
  · exact .inl ⟨hp, hrun⟩
  · exact .inl ⟨rfl, hrun⟩
  · exact .inl ⟨rfl, hrun⟩
  · exact .inr rfl

/-- Where no port write has faulted, every device has been serviced and its flag is clear. -/
theorem serviceFrom_pending (ds : List Device) (n : Nat) {s : State} (hrun : s.status = .running)
    (h : (serviceFrom n ds s).2.status ≠ .faulted) : ∀ d ∈ (serviceFrom n ds s).1, d.pending = false := by
  induction ds generalizing n s with
  | nil => exact fun _ hd => absurd hd List.not_mem_nil
  | cons d ds ih =>
    rw [serviceFrom_running n d ds s hrun] at h ⊢
    obtain ⟨hclear, hrun'⟩ | hfault := serviceDevice_cleared_or_faulted n d hrun
    · exact List.forall_mem_cons.2 ⟨hclear, ih (n + 1) hrun' h⟩
    · have hstop : (serviceDevice n d s).2.status ≠ .running := by simp [hfault]
      rw [serviceFrom_stopped _ _ _ hstop] at h
      exact absurd hfault h

theorem devicePhase_phase (s : State) : (devicePhase s).phase = s.phase :=
  serviceFrom_keeps_field State.phase serviceDevice_phase s.devices 0 s

theorem cpuStep_devices_phase {s t : State} (h : cpuStep s = .next t) : t.devices = s.devices ∧ t.phase = s.phase := by
  obtain ⟨-, rfl⟩ | ⟨i, -, -, hi⟩ | ⟨e, -, -, rfl⟩ := cpuStep_cases h
  · exact ⟨rfl, rfl⟩
  · obtain rfl := exec_eq_next_iff.1 hi
    obtain ⟨hdev, -, hph, -⟩ := (effectOf i).run_engine s
    exact ⟨hdev, hph⟩
  · exact ⟨rfl, rfl⟩

/-- A faulted CPU stays faulted (R241). -/
theorem cpuStep_faulted {s t : State} (hfault : s.status = .faulted) (h : cpuStep s = .next t) :
    t.status = .faulted := by
  rw [cpuStep_of_stopped (by simp [hfault])] at h
  cases h
  exact hfault

end Sys2Proof.Machine
end

section
/-! ## The outputs of a machine in the run loop (R241, R254, R264) -/

namespace Sys2Proof.Machine

/-- The outputs while the loop runs: one dump exactly when faulted, no `shutdown`. -/
def State.LoopOutputs (s : State) : Prop :=
  (s.events.filter Event.isDump).length = (if s.status = .faulted then 1 else 0) ∧
    s.events.filter Event.isShutdown = []

/-- In the loop, the invariant of the outputs is this. -/
theorem outputsInOrder_iff_of_looping {s : State} (h : s.phase = .looping) : s.OutputsInOrder ↔ s.LoopOutputs := by
  simp [State.OutputsInOrder, State.LoopOutputs, h]

variable {s t : State}

theorem State.LoopOutputs.congr (h : s.LoopOutputs) (he : t.events = s.events)
    (hst : t.status = .faulted ↔ s.status = .faulted) : t.LoopOutputs := by
  simpa only [State.LoopOutputs, he, hst] using h

theorem State.LoopOutputs.emit {e : Event} (h : s.LoopOutputs) (hdump : e.isDump = false)
    (hshut : e.isShutdown = false) : (s.emit e).LoopOutputs := by
  obtain ⟨hdumps, hshuts⟩ := h
  have hdumps' : (s.emit e).events.filter Event.isDump = s.events.filter Event.isDump := by simp [hdump]
  have hshuts' : (s.emit e).events.filter Event.isShutdown = s.events.filter Event.isShutdown := by simp [hshut]
  exact ⟨(congrArg List.length hdumps').trans hdumps, hshuts'.trans hshuts⟩

/-- The fault puts out its dump, the first one. -/
theorem State.LoopOutputs.takeFault (h : s.LoopOutputs) (hst : s.status ≠ .faulted) (f : Fault) :
    (takeFault f s).LoopOutputs := by
  obtain ⟨hdump, hshut⟩ := h
  rw [if_neg hst, List.length_eq_zero_iff] at hdump
  rw [State.LoopOutputs, takeFault_events, List.filter_append, List.filter_append, hdump, hshut]
  exact ⟨rfl, rfl⟩

theorem serviceDevice_loopOutputs (n : Nat) (d : Device) (hrun : s.status = .running) (hs : s.LoopOutputs) :
    (serviceDevice n d s).2.LoopOutputs := by
  have htick : (s.emit (.tick n)).LoopOutputs := hs.emit rfl rfl
  have hsend (answer : Option Byte) : ((s.emit (.tick n)).emit (.trySend n answer)).LoopOutputs :=
    htick.emit rfl rfl
  obtain ⟨-, h⟩ | ⟨-, -, h⟩ | ⟨p, b, -, -, -, h⟩ | ⟨p, b, -, -, -, h⟩ := serviceDevice_cases n d s <;> rw [h]
  · exact htick
  · exact (hsend _).emit rfl rfl
  · have hpoke : (((s.emit (.tick n)).emit (.trySend n (some b))).poke p (zext16 b)).LoopOutputs := hsend (some b)
    exact ((hpoke.emit rfl rfl).emit rfl rfl).emit rfl rfl
  · exact (hsend (some b)).takeFault (by simp [hrun]) _

theorem devicePhase_loopOutputs (hs : s.LoopOutputs) : (devicePhase s).LoopOutputs :=
  serviceFrom_preserves (P := State.LoopOutputs) (fun n d _ => serviceDevice_loopOutputs n d) s.devices 0 hs

theorem Effect.run_loopOutputs (e : Effect) (hrun : s.status = .running) (hs : s.LoopOutputs) :
    (e.run s).LoopOutputs := by
  have hst : s.status ≠ .faulted := by simp [hrun]
  cases e with
  | next | write _ _ | pop _ => exact hs
  | stop => exact hs.congr rfl (by simp [Effect.run, hst])
  | alu d _ _ =>
    obtain ⟨-, -, -, -, hstatus, -, -, -, -, hev, -⟩ := aluWrite_effect d _ _ s
    exact hs.congr hev (by rw [Effect.run, hstatus])
  | jump _ o => exact (jumpIf_keeps State.LoopOutputs (fun _ => rfl) _ o).mpr hs
  | store _ _ => exact busWrite_of_both (P := State.LoopOutputs) hs (hs.takeFault hst _)
  | push _ => exact busWrite_of_both (P := State.LoopOutputs) hs (hs.takeFault hst _)

theorem cpuStep_loopOutputs (hs : s.LoopOutputs) (h : cpuStep s = .next t) : t.LoopOutputs := by
  obtain ⟨-, rfl⟩ | ⟨i, hrun, -, hi⟩ | ⟨e, hrun, -, rfl⟩ := cpuStep_cases h
  · exact hs
  · exact exec_eq_next_iff.1 hi ▸ (effectOf i).run_loopOutputs hrun hs
  · exact hs.takeFault (by simp [hrun]) _

/-- The exit of the loop puts the `shutdown` calls after the outputs of the loop (R254). -/
theorem shutdownAll_outputsInOrder (hs : s.LoopOutputs) : (shutdownAll s).OutputsInOrder := by
  obtain ⟨hdump, hshut⟩ := hs
  have hcalls : (shutdownCalls s).filter Event.isDump = [] := by simp [shutdownCalls, Event.isDump]
  refine ⟨?_, fun hloop => RunPhase.noConfusion hloop, fun _ => ⟨s.events, rfl, hshut⟩⟩
  calc ((s.events ++ shutdownCalls s).filter Event.isDump).length
      = (s.events.filter Event.isDump).length := by rw [List.filter_append, hcalls, List.append_nil]
    _ = if s.status = .faulted then 1 else 0 := hdump

end Sys2Proof.Machine
end

section
/-! ## The step: it always answers, keeps the loop's place in a cycle, and leaves the loop once (R253, R254) -/

namespace Sys2Proof.Machine

theorem cpuStep_next (s : State) : ∃ t, cpuStep s = .next t := by
  by_cases hrun : s.status = .running
  · cases hd : decode s.params.decodePolicy (fetch s) with
    | ok i => exact cpuStep_of_decode hrun hd ▸ exec_next i s
    | error e => exact ⟨_, cpuStep_of_decode_error hrun hd⟩
  · exact ⟨s, cpuStep_of_stopped hrun⟩

theorem step_of_ended {s : State} (h : s.phase = .ended) : step s = .next s := by
  simp only [step, runStep, h]

theorem step_of_loop_exit {s : State} (hp : s.phase = .looping)
    (h : ¬ (s.status = .running ∧ s.cycles < s.params.cycleCap)) : step s = .next (shutdownAll s) := by
  have hguard : ¬ s.mayCycle = true := fun hc => h ((mayCycle_iff s).1 hc)
  simp only [step, runStep, hp, if_neg hguard]

theorem step_live_next {s : State} (h : s.Live) :
    ∃ u, cpuStep (devicePhase s) = .next u ∧ step s = .next u.countCycle := by
  obtain ⟨u, hu⟩ := cpuStep_next (devicePhase s)
  exact ⟨u, hu, by rw [step_live h, cycle, hu, mapNext]⟩

/-- A cycle is counted and leaves the run loop running. -/
theorem step_live_looping {s : State} (h : s.Live) :
    ∃ t, step s = .next t ∧ t.phase = .looping ∧ t.cycles = s.cycles + 1 ∧ t.params = s.params := by
  obtain ⟨u, hu, hstep⟩ := step_live_next h
  obtain ⟨-, hphase⟩ := cpuStep_devices_phase hu
  obtain ⟨hparams, -, hcycles⟩ := (devicePhase_keepsConfiguration s).trans (cpuStep_keepsConfiguration hu)
  exact ⟨_, hstep, (hphase.trans (devicePhase_phase s)).trans h.1, congrArg (· + 1) hcycles, hparams⟩

theorem core_run_of_ended {s : State} (h : s.phase = .ended) (n : Nat) : core.run n s = .next s := by
  induction n with
  | zero => exact core_run_zero s
  | succ n ih => rw [core_run_succ n (step_of_ended h), ih]

/-- With `n` cycles left the loop has been left after `n + 1` steps, whether the cap or the status ends it. -/
theorem core_run_ends {n : Nat} {s : State} (hp : s.phase = .looping) (hn : s.cycles + n = s.params.cycleCap) :
    ∃ t, core.run (n + 1) s = .next t ∧ t.phase = .ended ∧ t.cycles ≤ s.params.cycleCap := by
  induction n generalizing s with
  | zero =>
    have hstep := step_of_loop_exit hp (by omega)
    exact ⟨shutdownAll s, core_run_succ 0 hstep, rfl, hn.le⟩
  | succ n ih =>
    by_cases hguard : s.status = .running ∧ s.cycles < s.params.cycleCap
    · obtain ⟨t, hstep, hloop, hcycles, hparams⟩ := step_live_looping ⟨hp, hguard⟩
      rw [core_run_succ _ hstep, ← hparams]
      exact ih hloop (by rw [hcycles, hparams]; omega)
    · rw [core_run_succ _ (step_of_loop_exit hp hguard)]
      exact ⟨shutdownAll s, core_run_of_ended rfl _, rfl, (Nat.le_add_right _ _).trans hn.le⟩

end Sys2Proof.Machine
end

section
/-! ## Deliveries that store: the service of one device and the whole device phase (R247 to R251) -/

namespace Sys2Proof.Machine

/-- What the device phase makes of a state when every delivery stores: the bytes in memory and the outputs of the
devices from place `n` on, in registration order. -/
def deliverAll (n : Nat) (ds : List Device) (s : State) : State :=
  { s with
    mem := (ds.filterMap Device.delivery).foldl (fun m w => m.write w.1 (zext16 w.2)) s.mem
    events := s.events ++ (ds.zipIdx n).flatMap fun d => d.1.outputs d.2 }

theorem deliverAll_nil (n : Nat) (s : State) : deliverAll n [] s = s := by
  simp [deliverAll]

theorem deliverAll_cons (n : Nat) (d : Device) (ds : List Device) (s : State) :
    deliverAll n (d :: ds) s = deliverAll (n + 1) ds (deliverAll n [d] s) := by
  cases hd : d.delivery <;> simp [deliverAll, hd]

theorem delivery_eq_some_iff {d : Device} {p : Word} {b : Byte} :
    d.delivery = some (p, b) ↔ d.ticked.pending = true ∧ d.nextPoll.answer = some b ∧ d.port = some p := by
  unfold Device.delivery
  split
  · next hpend =>
    split
    · next b' p' hans hport => simp [hpend, hans, hport, and_comm]
    · next hno => simpa [hpend] using hno b p
  · next hpend => simp [hpend]

theorem outputs_of_delivery {d : Device} {p : Word} {b : Byte} (h : d.delivery = some (p, b)) (n : Nat) :
    d.outputs n =
      [.tick n, .trySend n (some b), .portWrite n p (zext16 b), .receive n b, .pendingCleared n] := by
  obtain ⟨hpend, hans, hport⟩ := delivery_eq_some_iff.1 h
  simp [Device.outputs, hpend, hans, hport]

theorem outputs_of_no_delivery {d : Device} (hpend : d.ticked.pending = true) (h : d.delivery = none) (n : Nat) :
    d.outputs n = [.tick n, .trySend n d.nextPoll.answer, .pendingCleared n] := by
  rw [Device.outputs, if_pos hpend]
  split
  · next b p hans hport => exact absurd (delivery_eq_some_iff.2 ⟨hpend, hans, hport⟩) (by simp [h])
  · rfl

/-- The service of a device whose byte, if it has one, is stored. -/
theorem serviceDevice_of_canWrite {n : Nat} {d : Device} {s : State}
    (hw : ∀ p b, d.delivery = some (p, b) → s.canWrite p = true) :
    serviceDevice n d s = (d.ticked.cleared, deliverAll n [d] s) := by
  obtain ⟨hp, h⟩ | ⟨hp, hd, h⟩ | ⟨p, b, -, hd, -, h⟩ | ⟨p, b, -, hd, hno, -⟩ := serviceDevice_cases n d s
  · have hclear : d.ticked.cleared = d.ticked := by rw [Device.cleared, ← hp]
    have hd : d.delivery = none := by simp [Device.delivery, hp]
    rw [h, hclear]
    simp [deliverAll, hd, Device.outputs, hp, State.emit]
  · rw [h]
    simp [deliverAll, hd, outputs_of_no_delivery hp hd, State.emit]
  · rw [h]
    simp [deliverAll, hd, outputs_of_delivery hd, State.emit, State.poke, delivered]
  · exact absurd (hw p b hd) (by simp [hno])

theorem serviceFrom_of_romWritable {n : Nat} {ds : List Device} {s : State} (hrun : s.status = .running)
    (hrom : s.params.romWritable = true) :
    serviceFrom n ds s = (ds.map fun d => d.ticked.cleared, deliverAll n ds s) := by
  induction ds generalizing n s with
  | nil => rw [deliverAll_nil]; rfl
  | cons d ds ih =>
    have hone : serviceDevice n d s = (d.ticked.cleared, deliverAll n [d] s) :=
      serviceDevice_of_canWrite fun p _ _ => canWrite_of_romWritable hrom p
    have hrest := ih (n := n + 1) (s := deliverAll n [d] s) hrun hrom
    rw [serviceFrom_running n d ds s hrun, hone, hrest, ← deliverAll_cons, List.map_cons]

theorem devicePhase_of_romWritable {s : State} (hrun : s.status = .running) (hrom : s.params.romWritable = true) :
    devicePhase s = (deliverAll 0 s.devices s).setDevices (s.devices.map fun d => d.ticked.cleared) := by
  rw [devicePhase, serviceFrom_of_romWritable hrun hrom]

/-- The one delivery of a single device is one store. -/
theorem deliverAll_memRead_of_delivery {d : Device} {p : Word} {b : Byte} (h : d.delivery = some (p, b)) (n : Nat)
    (s : State) (a : Word) : (deliverAll n [d] s).memRead a = (s.poke p (zext16 b)).memRead a := by
  have hmem : (deliverAll n [d] s).mem = (s.poke p (zext16 b)).mem := by simp [deliverAll, h]
  exact congrArg (·.read a) hmem

theorem serviceDevice_of_no_answer {n : Nat} {d : Device} {s : State} (hpend : d.ticked.pending = true)
    (hans : d.nextPoll.answer = none) :
    serviceDevice n d s =
      (d.ticked.cleared, ((s.emit (.tick n)).emit (.trySend n none)).emit (.pendingCleared n)) := by
  simp [serviceDevice, hpend, hans, deliver]

end Sys2Proof.Machine
end

section
/-! ## The obligations of the family -/

open Sys2Proof Sys2Proof.Machine

/-- Settles O15: the device phase and the CPU step keep memory canonical; a flag is left set only by the fault of a port
write, which the CPU step leaves a fault; and a cycle is counted only below the cap. -/
theorem stepKeepsInvariant : Obligations.StepKeepsInvariant := by
  intro s t hinv h
  obtain ⟨-, rfl⟩ | ⟨u, ⟨-, hrun, hcap⟩, hu, rfl⟩ | ⟨-, -, rfl⟩ := step_cases h
  · exact hinv
  · obtain ⟨hwf, -, -⟩ := hinv
    obtain ⟨hparams, -, hcycles⟩ := (devicePhase_keepsConfiguration s).trans (cpuStep_keepsConfiguration hu)
    obtain ⟨hdevices, -⟩ := cpuStep_devices_phase hu
    have hwf' : u.mem.wf = true := cpuStep_wf (devicePhase_wf hwf) hu
    refine ⟨hwf', ?_, fun hst => ?_⟩
    · calc u.cycles + 1 = s.cycles + 1 := by rw [hcycles]
        _ ≤ s.params.cycleCap := hcap
        _ = u.params.cycleCap := by rw [hparams]
    · have hphase : (devicePhase s).status ≠ .faulted := fun hfault =>
        absurd (cpuStep_faulted hfault hu) hst
      rw [State.countCycle_devices, hdevices]
      exact serviceFrom_pending s.devices 0 hrun hphase
  · exact hinv

/-- Settles O16: in the loop, every output is one the invariant does not speak of, or the dump of the fault taken; the
exit adds the `shutdown` calls after them all, and nothing follows it. -/
theorem stepKeepsOutputsInOrder : Obligations.StepKeepsOutputsInOrder := by
  intro s t hs h
  obtain ⟨-, rfl⟩ | ⟨u, ⟨hloop, -⟩, hu, rfl⟩ | ⟨hloop, -, rfl⟩ := step_cases h
  · exact hs
  · have hout := (outputsInOrder_iff_of_looping hloop).1 hs
    obtain ⟨-, hphase⟩ := cpuStep_devices_phase hu
    have hloop' : u.countCycle.phase = .looping := (hphase.trans (devicePhase_phase s)).trans hloop
    have hout' : u.LoopOutputs := cpuStep_loopOutputs (devicePhase_loopOutputs hout) hu
    exact (outputsInOrder_iff_of_looping hloop').2 hout'
  · exact shutdownAll_outputsInOrder ((outputsInOrder_iff_of_looping hloop).1 hs)

/-- Settles O9: the CPU step after the device phase is the fault at decode. -/
theorem undecodableWordTakesTheFault : Obligations.UndecodableWordTakesTheFault := by
  intro s e hlive hrun hdec
  obtain ⟨-, -, hcycles⟩ := devicePhase_keepsConfiguration s
  obtain ⟨u, hu, hstep⟩ := step_live_next hlive
  cases hu.symm.trans (cpuStep_of_decode_error hrun hdec)
  exact ⟨_, hstep, rfl, ⟨rfl, rfl, rfl, rfl⟩, rfl, rfl, rfl, rfl, congrArg (· + 1) hcycles⟩

/-- Settles O18, by induction on the cycles left. -/
theorem everyRunEnds : Obligations.EveryRunEnds := fun _ hp hle => core_run_ends hp (Nat.add_sub_of_le hle)

/-- Settles O21: the guard of the loop fails, so the step is the exit, and a step after the exit does nothing. -/
theorem runExitShutsDownOnce : Obligations.RunExitShutsDownOnce := by
  intro s hp hstop
  have hguard : ¬ (s.status = .running ∧ s.cycles < s.params.cycleCap) := fun ⟨hrun, hlt⟩ =>
    hstop.elim (absurd hrun) (Nat.not_le_of_lt hlt)
  exact ⟨_, step_of_loop_exit hp hguard, rfl, rfl, ⟨rfl, rfl, rfl, rfl⟩, rfl, rfl, rfl, rfl, step_of_ended rfl⟩

/-- Settles O52: the device has a byte to deliver and its port stores, so the service is the one store with the outputs
of a delivery. -/
theorem deliverySequence : Obligations.DeliverySequence := by
  intro n d p b s hwf hstore hport hpend hans
  have hdel : d.delivery = some (p, b) := delivery_eq_some_iff.2 ⟨hpend, hans, hport⟩
  have hservice : serviceDevice n d s = (d.ticked.cleared, deliverAll n [d] s) :=
    serviceDevice_of_canWrite fun p' b' h => by
      cases hdel.symm.trans h
      exact (canWrite_iff s p).2 hstore
  have hread := deliverAll_memRead_of_delivery hdel n s
  simp only [hservice]
  refine ⟨?_, rfl, (hread p).trans (poke_memRead_same hwf p _),
    fun a ha => (hread a).trans (poke_keepsMemoryBut hwf p _ a ha), rfl, rfl, rfl, rfl, rfl, rfl, rfl⟩
  simp [deliverAll, outputs_of_delivery hdel, zext16]

/-- Settles O55, by induction on the devices: with ROM writable each delivery stores, so none stops the phase. -/
theorem devicePhaseDelivers : Obligations.DevicePhaseDelivers := by
  intro s hrun hrom
  simp only [devicePhase_of_romWritable hrun hrom]
  exact ⟨rfl, rfl, rfl, rfl, rfl, rfl, hrun, rfl, rfl, rfl⟩

/-- Settles O56: the device phase stores the byte away from `pc`, so the word fetched is still the `LW`, which reads
memory as the phase left it. -/
theorem loadSeesTheDeliveryOfItsCycle : Obligations.LoadSeesTheDeliveryOfItsCycle := by
  intro s dev d a p b hlive hwf hrom hdev hdel hpc ha hword
  have ⟨_, hrun, _⟩ := hlive
  have hphase : devicePhase s = (deliverAll 0 [dev] s).setDevices [dev.ticked.cleared] := by
    rw [devicePhase_of_romWritable hrun hrom, hdev]
    rfl
  have hread (c : Word) : (devicePhase s).memRead c = (s.poke p (zext16 b)).memRead c := by
    rw [hphase]
    exact deliverAll_memRead_of_delivery hdel 0 s c
  obtain ⟨hreg, hpc', hstatus⟩ :
      (devicePhase s).reg a = s.reg a ∧ (devicePhase s).pc = s.pc ∧ (devicePhase s).status = s.status := by
    rw [hphase]
    exact ⟨rfl, rfl, rfl⟩
  have hfetch : fetch (devicePhase s) = encode (.lwReg d a) :=
    calc (devicePhase s).memRead (devicePhase s).pc
        = (s.poke p (zext16 b)).memRead s.pc := by rw [hread, hpc']
      _ = s.memRead s.pc := poke_keepsMemoryBut hwf p _ _ hpc.symm
      _ = encode (.lwReg d a) := hword
  have hstep : step s = .next (Machine.loadWord d (.reg a) (devicePhase s)).countCycle := by
    rw [step_live hlive, cycle, cpuStep_of_fetch_encode (hstatus.trans hrun) hfetch]
    rfl
  refine ⟨_, hstep, ?_, congrArg (· + 1) hpc'⟩
  calc (Machine.loadWord d (.reg a) (devicePhase s)).reg d
      = (devicePhase s).memRead ((devicePhase s).reg a) := loadWord_reg d (.reg a) _
    _ = (s.poke p (zext16 b)).memRead p := by rw [hread, hreg, ha]
    _ = b.setWidth 16 := poke_memRead_same hwf p _

/-- Settles O11: a step is nothing, a cycle or the exit, and the CPU step of a cycle answers a next state. -/
theorem everyStepAnswersNext : Obligations.EveryStepAnswersNext := by
  intro s
  cases hp : s.phase with
  | ended => exact ⟨s, step_of_ended hp⟩
  | looping =>
    by_cases hguard : s.status = .running ∧ s.cycles < s.params.cycleCap
    · obtain ⟨u, -, hstep⟩ := step_live_next ⟨hp, hguard⟩
      exact ⟨_, hstep⟩
    · exact ⟨_, step_of_loop_exit hp hguard⟩

/-- Settles O54: the delivery is reached by a set flag only, and writes for a byte and a port only; `tick` sets the flag
of a device with a port only. -/
theorem noDeliveryWithoutAByte : Obligations.NoDeliveryWithoutAByte := by
  refine ⟨fun n d s hpend => ?_, fun n d s hpend hans => ?_, fun d hport hpend => ?_⟩
  · simp [serviceDevice, hpend]
  · simp only [serviceDevice_of_no_answer hpend hans]
    exact ⟨rfl, by simp, rfl, rfl, rfl, rfl, rfl⟩
  · simp [Device.ticked, hport, hpend]

end

/-! # The family of 70_reset_and_hazards.md: the reset sequence -/

section
/-! ## What the reset sequence answers when the loader accepts the image (R79, R290) -/

namespace Sys2Proof.Machine

/-- A loader that does not refuse has copied the image and changed nothing else. -/
theorem eq_of_loadImage_eq_ok {image : List Word} {addr : Nat} {s t : State} (h : loadImage image addr s = .ok t) :
    t = { s with mem := copyImage addr image s.mem } := by
  rcases Nat.lt_or_ge 0x7FFF addr with hrom | hrom
  · cases h.symm.trans (loadImage_beyondRom hrom image s)
  · rcases Nat.lt_or_ge 0x8000 (addr + image.length) with hlong | hfit
    · cases h.symm.trans (loadImage_leavesRom hrom hlong s)
    · cases h.symm.trans (loadImage_of_fits hrom hfit s)
      rfl

/-- The state before the first cycle is the reset state with the parameters, the devices and the image. -/
theorem eq_of_boot_eq_ok {p : Params} {ds : List Device} {image : List Word} {addr : Nat} {s : State}
    (h : boot p ds image addr = .ok s) :
    s = { State.reset with
      params := p, devices := ds.map Device.cleared, mem := copyImage addr image State.reset.mem } :=
  eq_of_loadImage_eq_ok h

theorem map_port_map_cleared (ds : List Device) : (ds.map Device.cleared).map Device.port = ds.map Device.port :=
  List.map_map

theorem pending_of_mem_map_cleared (ds : List Device) : ∀ d ∈ ds.map Device.cleared, d.pending = false :=
  List.forall_mem_map.2 fun _ _ => rfl

end Sys2Proof.Machine
end

section
/-! ## The obligation of the family -/

open Sys2Proof Sys2Proof.Machine

/-- Settles O17: the reset sequence keeps the reset state's registers, counter, place in the loop and outputs, copying an
image keeps memory canonical, and the devices are registered cleared. -/
theorem bootEstablishesInvariants : Obligations.BootEstablishesInvariants := by
  intro p ds image addr s h
  obtain rfl := eq_of_boot_eq_ok h
  obtain ⟨hpc, hsp, hstatus, hcycles, hphase, hregs, -, -⟩ := resetState
  obtain ⟨⟨hwf, -, -⟩, hout⟩ := resetSatisfiesInvariants
  have hpending := pending_of_mem_map_cleared ds
  have hloop : State.reset.LoopOutputs := (outputsInOrder_iff_of_looping hphase).1 hout
  refine ⟨⟨copyImage_wf image addr _ hwf, Nat.zero_le _, fun _ => hpending⟩, ?_,
    hpc, hsp, hstatus, hcycles, rfl, hregs, map_port_map_cleared ds, hpending⟩
  refine (outputsInOrder_iff_of_looping ?_).2 (hloop.congr ?_ ?_)
  · exact hphase
  · rfl
  · exact Iff.rfl

end
